-- ==== Sys2Proof/Word.lean ====
section
/-! DEFINITION. The byte, the 16-bit number and the byte sequence (spec 00_scope.md R10, 20_memory.md R26). -/

namespace Sys2Proof

/-- A byte is 8 bits (R10, R26). -/
abbrev Byte := BitVec 8

/-- The width of `SEQ`, of the length field and of the sequence field (R13, R27). -/
abbrev Word16 := BitVec 16

/-- A byte sequence in wire order: the head is the byte at offset 0 (R26). -/
abbrev Bytes := List Byte

end Sys2Proof
end

