-- ==== Sys2Proof/Config.lean ====
section
/-! DEFINITION. The fixed protocol constants and the instantiation parameters (spec 00_scope.md R5 to R7).
No value of this hardware is left open (93_implementation_defined.md), so there is no free value here. -/

namespace Sys2Proof

/-- Which end of the link an instance is (R6). -/
inductive Role where
  | A
  | B
  deriving DecidableEq, Repr

/-- How the two length bytes are read and how large a payload may be (R7). -/
inductive LenMode where
  | len16
  | len8
  deriving DecidableEq, Repr

/-- The parameters fixed when the block is instantiated (R6, R7). `IN_MAX` is unbounded (R8; log 13). -/
structure Params where
  role : Role
  lenMode : LenMode
  deriving DecidableEq, Repr

namespace Config

/-- Channel byte, endpoint A to endpoint B (R5). -/
abbrev CH_A2B : Byte := 0x30#8

/-- Channel byte, endpoint B to endpoint A (R5). -/
abbrev CH_B2A : Byte := 0x31#8

/-- Message type byte of a data message (R5). -/
abbrev MSG_DATA : Byte := 0xA1#8

/-- The largest sequence number (R5). -/
abbrev MAX_SEQ_NUMBER : Nat := 65535

/-- Header length in bytes; the payload starts here (R5). -/
abbrev HDR_LEN : Nat := 6

/-- The parameters this hardware takes by default: R6 (decision D3) and R7 (decision D2); log 2. -/
def defaultParams : Params := { role := .A, lenMode := .len16 }

end Config

end Sys2Proof
end

