-- ==== Sys2Proof/Machine/Bytes.lean ====
section
/-! DEFINITION. Byte order and the layout of a header: the helpers the decoder, the encoder and the meanings share
(spec 20_memory.md R27, 30_encoding.md R41, R44, R49, R50). -/

namespace Sys2Proof.Machine

/-- The high byte of a 16-bit field, `v >> 8` (R50). -/
def hiByte (v : Word16) : Byte := (v >>> 8).setWidth 8

/-- The low byte of a 16-bit field, `v & 0xFF` (R50). -/
def loByte (v : Word16) : Byte := (v &&& 0xFF#16).setWidth 8

/-- `zext_16` of a byte (R10). -/
def zext16 (b : Byte) : Word16 := b.setWidth 16

/-- `be16(hi, lo) = (zext_16(hi) << 8) | zext_16(lo)` (R10, R50). -/
def be16 (hi lo : Byte) : Word16 := (zext16 hi <<< 8) ||| zext16 lo

/-- The length byte at offset 2, `L >> 8` (R49). -/
def lenHi (L : Nat) : Byte := BitVec.ofNat 8 (L >>> 8)

/-- The length byte at offset 3, `L & 0xFF` (R49). -/
def lenLo (L : Nat) : Byte := BitVec.ofNat 8 (L &&& 0xFF)

/-- The six header bytes in wire order: channel, message type, length, sequence number (R41, R47, R49). -/
def headerBytes (channel : Byte) (L : Nat) (s : Word16) : Bytes :=
  [channel, Config.MSG_DATA, lenHi L, lenLo L, hiByte s, loByte s]

/-- A frame: the header, then the payload, and nothing after it (R41, R43). -/
def frameBytes (channel : Byte) (s : Word16) (payload : Bytes) : Bytes :=
  headerBytes channel payload.length s ++ payload

/-- The header as one 48-bit big-endian number: channel `H[47:40]`, message type `H[39:32]`, length `H[31:16]`,
sequence number `H[15:0]` (R44). -/
def header48 (channel msgType : Byte) (L s : Word16) : BitVec 48 :=
  ((channel ++ msgType ++ L) ++ s : BitVec 48)

/-- Field `H[47:40]` (R44). -/
def headerChannel (h : BitVec 48) : Byte := h.extractLsb' 40 8

/-- Field `H[39:32]` (R44). -/
def headerType (h : BitVec 48) : Byte := h.extractLsb' 32 8

/-- Field `H[31:16]` (R44). -/
def headerLength (h : BitVec 48) : Word16 := h.extractLsb' 16 16

/-- Field `H[15:0]` (R44). -/
def headerSeq (h : BitVec 48) : Word16 := h.extractLsb' 0 16

/-- The six bytes of a 48-bit header, offset 0 first (R44). -/
def bytesOfHeader48 (h : BitVec 48) : Bytes :=
  [headerChannel h, headerType h, hiByte (headerLength h), loByte (headerLength h),
    hiByte (headerSeq h), loByte (headerSeq h)]

end Sys2Proof.Machine
end

