-- ==== Sys2Proof/Syntax.lean ====
section
/-! DEFINITION. The operations (one constructor per row of spec/opcode_table.json), and their encoded forms,
the signals an instance is presented with. -/

namespace Sys2Proof

/-- The rows of spec/opcode_table.json, in its order. -/
inductive Instr where
  /-- ENCODE: `IN` is the payload (R58, R76). -/
  | encode (IN : Bytes)
  /-- DECODE: `IN` is the received bytes (R58, R79). -/
  | decode (IN : Bytes)
  /-- RESET: the reset input asserted (R105, R106). -/
  | reset
  /-- ENCODE_HEADER of a payload length, internal (R61). -/
  | encodeHeader (L : Nat)
  /-- DECODE_CHANNEL of a received frame, internal (R62). -/
  | decodeChannel (F : Bytes)
  /-- DECODE_LENGTH of a received frame, internal (R63). -/
  | decodeLength (F : Bytes)
  /-- SEQ_ADVANCE of a sequence number, internal (R67). -/
  | seqAdvance (v : Word16)
  /-- FRAME.A2B: a frame from endpoint A to endpoint B arrives; its length field is `payload.length` (R41, R45; log 8). -/
  | frameA2B (seqNo : Word16) (payload : Bytes)
  /-- FRAME.B2A: a frame from endpoint B to endpoint A arrives (R41, R45; log 8). -/
  | frameB2A (seqNo : Word16) (payload : Bytes)
  deriving DecidableEq, Repr

/-- What can be presented to an instance, in the bit patterns of spec/opcode_table.json. The byte count `N`
of a command is the length of its bytes (R58; log 14). -/
inductive Signal where
  /-- Format CMD: the 1-bit selector and the operand bytes (R58). -/
  | cmd (op : BitVec 1) (IN : Bytes)
  /-- Format RST: the 1-bit reset input (R106). -/
  | rst (line : BitVec 1)
  /-- Format FRAME: bytes handed over by the transport (R41; log 9). -/
  | received (bytes : Bytes)
  /-- Format HDR, ENCODE_HEADER: the 48-bit header pattern; only its length field is an operand (R44, R61; log 10). -/
  | hdrEncode (pattern : BitVec 48)
  /-- Format HDR, DECODE_CHANNEL: the frame it reads (R62). -/
  | hdrChannel (F : Bytes)
  /-- Format HDR, DECODE_LENGTH: the frame it reads (R63). -/
  | hdrLength (F : Bytes)
  /-- Format FN, SEQ_ADVANCE: its 16-bit operand (R67). -/
  | fn (v : Word16)
  deriving DecidableEq, Repr

/-- Why a signal is the encoding of no operation. -/
inductive DecodeError where
  /-- The reset input is not asserted: nothing is asked of the block (R106; log 15). -/
  | resetNotAsserted
  /-- An ENCODE_HEADER pattern whose fixed message type bits are not `0xA1` (R46; log 10). -/
  | headerTypeBits
  /-- DECODE_CHANNEL of the empty sequence (R65). -/
  | channelOfEmptyFrame
  /-- DECODE_LENGTH of fewer than 4 bytes (R65). -/
  | lengthOfShortFrame
  deriving DecidableEq, Repr

end Sys2Proof
end

