-- ==== Sys2Proof/WellFormed.lean ====
section
/-! DEFINITION. Which terms of `Instr` are operations of the block at all: the operand fits its field and the
preconditions that do not depend on the instance hold. -/

namespace Sys2Proof

/-- Well-formed operations. A length and a payload length fit the 16-bit field (R42, R43, R61); a decoder of the
Header Codec is given the bytes it reads (R62, R63, R65). Every operand of ENCODE and DECODE is legal (R58). -/
def Instr.wf : Instr → Bool
  | .encode _ => true
  | .decode _ => true
  | .reset => true
  | .encodeHeader L => decide (L ≤ 65535)
  | .decodeChannel F => decide (1 ≤ F.length)
  | .decodeLength F => decide (4 ≤ F.length)
  | .seqAdvance _ => true
  | .frameA2B _ payload => decide (payload.length ≤ 65535)
  | .frameB2A _ payload => decide (payload.length ≤ 65535)

end Sys2Proof
end

