-- ==== Sys2Proof/Decode.lean ====
section
/-! DEFINITION. From a signal to an operation, total, rejecting by name; then the encoder, written from the same
patterns of spec/opcode_table.json; then the entry by which the host asks for one row's word. -/

namespace Sys2Proof

open Machine

/-- ENCODE_HEADER's 48-bit pattern: its message type bits are fixed, its length field is the operand, its channel and
sequence fields are what the operation itself produces and are not read (opcode_table.json, R61; log 10). -/
def decodeHeaderPattern (h : BitVec 48) : Except DecodeError Instr :=
  if headerType h = Config.MSG_DATA then .ok (.encodeHeader (headerLength h).toNat)
  else .error .headerTypeBits

/-- Bytes handed over by the transport: a frame of the two FRAME rows where they are exactly one such frame, and
otherwise the operand of a DECODE, which judges any bytes (R41, R43, R54; log 9). -/
def decodeReceived (bytes : Bytes) : Instr :=
  match bytes with
  | c :: m :: l1 :: l0 :: s1 :: s0 :: payload =>
    if m = Config.MSG_DATA ∧ payload.length = (be16 l1 l0).toNat then
      if c = Config.CH_A2B then .frameA2B (be16 s1 s0) payload
      else if c = Config.CH_B2A then .frameB2A (be16 s1 s0) payload
      else .decode (c :: m :: l1 :: l0 :: s1 :: s0 :: payload)
    else .decode (c :: m :: l1 :: l0 :: s1 :: s0 :: payload)
  | short => .decode short

/-- The decoder. `op = 0` selects ENCODE and `op = 1` DECODE (R58); the other formats as opcode_table.json has them. -/
def decode : Signal → Except DecodeError Instr
  | .cmd op IN => .ok (if op = 0#1 then .encode IN else .decode IN)
  | .rst line => if line = 1#1 then .ok .reset else .error .resetNotAsserted
  | .received bytes => .ok (decodeReceived bytes)
  | .hdrEncode h => decodeHeaderPattern h
  | .hdrChannel F => if 1 ≤ F.length then .ok (.decodeChannel F) else .error .channelOfEmptyFrame
  | .hdrLength F => if 4 ≤ F.length then .ok (.decodeLength F) else .error .lengthOfShortFrame
  | .fn v => .ok (.seqAdvance v)

/-- The encoder: the signal that stands for a well-formed operation. -/
def encode : Instr → Signal
  | .encode IN => .cmd 0#1 IN
  | .decode IN => .cmd 1#1 IN
  | .reset => .rst 1#1
  | .encodeHeader L => .hdrEncode (header48 0#8 Config.MSG_DATA (BitVec.ofNat 16 L) 0#16)
  | .decodeChannel F => .hdrChannel F
  | .decodeLength F => .hdrLength F
  | .seqAdvance v => .fn v
  | .frameA2B s payload => .received (frameBytes Config.CH_A2B s payload)
  | .frameB2A s payload => .received (frameBytes Config.CH_B2A s payload)

/-- The signal that a 48-bit word of the opcode table stands for. The patterns overlap, so the most specific row is
taken: a FRAME row (with `length` payload bytes of zero), then ENCODE_HEADER, then DECODE_LENGTH (log 11). -/
def signalOfHeaderWord (h : BitVec 48) : Signal :=
  if headerType h = Config.MSG_DATA then
    if headerChannel h = Config.CH_A2B ∨ headerChannel h = Config.CH_B2A then
      .received (bytesOfHeader48 h ++ List.replicate (headerLength h).toNat 0#8)
    else .hdrEncode h
  else .hdrLength (bytesOfHeader48 h)

/-- The signal that a word of the opcode table stands for, by the row's width in whole bytes. A one-bit pattern is a
command with `N = 0`; any other byte is DECODE_CHANNEL's; RESET's pattern is DECODE's and cannot be told apart (log 11). -/
def signalOfTableWord (nbits w : Nat) : Option Signal :=
  if nbits = 1 ∨ nbits = 8 then
    if w = 0 then some (.cmd 0#1 [])
    else if w = 1 then some (.cmd 1#1 [])
    else some (.hdrChannel [BitVec.ofNat 8 w])
  else if nbits = 16 then some (.fn (BitVec.ofNat 16 w))
  else if nbits = 48 then some (signalOfHeaderWord (BitVec.ofNat 48 w))
  else none

/-- The operation the decoder reads from a word of the opcode table, bit 0 the least significant bit of the row's pattern
read as one number (30_encoding.md R44). -/
def decodeTableWord (nbits w : Nat) : Option Instr :=
  match signalOfTableWord nbits w with
  | some sig =>
    match decode sig with
    | .ok i => some i
    | .error _ => none
  | none => none

end Sys2Proof
end

