-- ==== Sys2Proof/Machine/State.lean ====
section
/-! DEFINITION. The state of one instance with its interface, the results it hands out, and the reasons a step can stop. -/

namespace Sys2Proof.Machine

/-- The four values of `status` (spec 60_exceptions.md R88, R89). -/
inductive Status where
  | ok
  | unexpectedFrame
  | truncatedFrame
  | payloadTooLarge
  deriving DecidableEq, Repr

/-- The three error results (R88). -/
inductive Err where
  /-- The channel byte is not `RX_CHANNEL` (R90). -/
  | unexpectedFrame
  /-- Fewer bytes than the header and its declared length require (R91). -/
  | truncatedFrame
  /-- The payload is longer than the length field can say (R92). -/
  | payloadTooLarge
  deriving DecidableEq, Repr

/-- The two commands (R58). -/
inductive Op where
  | encode
  | decode
  deriving DecidableEq, Repr

/-- A result `(status, M, OUT)`; `M` is the length of `out` (R59). -/
structure Result where
  status : Status
  out : Bytes
  deriving DecidableEq, Repr

/-- What the interface hands out, one entry for each operation performed (log 4). -/
inductive Event where
  /-- The result of a command; each command yields exactly one (R59, R117). -/
  | result (op : Op) (r : Result)
  /-- A reset was taken. It has no result (R105); this is the model's mark of where it fell (log 4). -/
  | resetTaken
  /-- The 6 bytes an internal ENCODE_HEADER returned (R61; log 6). -/
  | header (h : Bytes)
  /-- The byte an internal DECODE_CHANNEL returned (R62; log 6). -/
  | channel (c : Byte)
  /-- The number an internal DECODE_LENGTH returned (R63; log 6). -/
  | length (l : Word16)
  /-- The number an internal SEQ_ADVANCE returned (R67; log 6). -/
  | advanced (v : Word16)
  deriving DecidableEq, Repr

/-- The architectural state of one instance: exactly one register (R12, R13). -/
structure Codec where
  /-- `SEQ`, the sequence number the next successfully built frame will carry. -/
  seq : Word16
  deriving DecidableEq, Repr

/-- The interface's side, outside the block (R20): the inputs presented, oldest first, and what was handed out, newest
first (log 3, log 4). -/
structure Port where
  pending : List Signal
  transcript : List Event
  deriving DecidableEq, Repr

/-- One instance: its state, its parameters (never written: R6, R21; log 1), and its interface. -/
structure State where
  codec : Codec
  params : Params
  port : Port
  deriving DecidableEq, Repr

/-- The register `SEQ` (R13). -/
abbrev State.seq (s : State) : Word16 := s.codec.seq

/-- The inputs presented and not yet taken. -/
abbrev State.pending (s : State) : List Signal := s.port.pending

/-- What was handed out, newest first. -/
abbrev State.transcript (s : State) : List Event := s.port.transcript

/-- The reasons the machine can stop with a fault: none. Every error of the spec is a result and every command
completes (R96, R117), so this type has no constructor and nothing raises one; safe (log 20). -/
inductive Fault where
  deriving DecidableEq, Repr

/-- The reasons a step has no meaning. -/
inductive Refusal where
  /-- An instruction with no meaning yet, raised by an arm of `exec` only; safe. -/
  | notModelled (mnemonic : String)
  /-- ENCODE_HEADER with `L > MAX_PAYLOAD`, raised by its meaning (R65, U1); safe (log 7). -/
  | headerLengthTooLarge
  /-- DECODE_CHANNEL of the empty sequence, raised by its meaning (R65, U1); safe (log 7). -/
  | channelOfEmptyFrame
  /-- DECODE_LENGTH of fewer than 4 bytes, raised by its meaning (R65, U1); safe (log 7). -/
  | lengthOfShortFrame
  /-- A frame term whose payload no length field can say, so that no such frame exists (R43), raised by the two FRAME
  meanings on ill-formed terms only; safe (log 22). -/
  | frameTooLong
  /-- A signal that encodes no operation, raised by `step`; safe (log 10). -/
  | undecodable (e : DecodeError)
  deriving DecidableEq, Repr

/-- The machine right after reset: `SEQ` is 0 (R16, R105), the parameters are the defaults (log 2), and nothing has
been presented or handed out (log 3, log 4). -/
def State.reset : State :=
  { codec := { seq := 0#16 }, params := Config.defaultParams, port := { pending := [], transcript := [] } }

end Sys2Proof.Machine
end

