-- ==== Sys2Proof/Machine/Flags.lean ====
section
/-! DEFINITION. The block has no flag and no condition code (spec 10_state.md R20); what stands in their place is the
status of a result, with its numeric code (60_exceptions.md R88, R89). -/

namespace Sys2Proof.Machine

/-- The 2-bit code of a status (R89, decision D7). -/
def Status.code : Status → BitVec 2
  | .ok => 0#2
  | .unexpectedFrame => 1#2
  | .truncatedFrame => 2#2
  | .payloadTooLarge => 3#2

/-- The status an error is reported as (R88). -/
def Err.status : Err → Status
  | .unexpectedFrame => .unexpectedFrame
  | .truncatedFrame => .truncatedFrame
  | .payloadTooLarge => .payloadTooLarge

/-- The 1-bit selector of a command (R58, decision D6). -/
def Op.selector : Op → BitVec 1
  | .encode => 0#1
  | .decode => 1#1

end Sys2Proof.Machine
end

