-- ==== Sys2Proof/Machine/Operands.lean ====
section
/-! DEFINITION. What the parameters select, and the primitives over the operand and the result of the operation in
progress (spec 00_scope.md R6, R7; 20_memory.md R25 to R29). -/

namespace Sys2Proof.Machine

/-- `TX_CHANNEL`, the channel byte an instance emits (R6). -/
def txChannel : Role → Byte
  | .A => Config.CH_A2B
  | .B => Config.CH_B2A

/-- `RX_CHANNEL`, the channel byte an instance accepts (R6). -/
def rxChannel : Role → Byte
  | .A => Config.CH_B2A
  | .B => Config.CH_A2B

/-- `MAX_PAYLOAD` (R7). -/
def maxPayload : LenMode → Nat
  | .len16 => 65535
  | .len8 => 255

/-- `MemRead(off, n) = IN[off..off+n)`, defined only when `off + n <= N` (R28). -/
def memRead (IN : Bytes) (off n : Nat) (_inside : off + n ≤ IN.length) : Bytes :=
  (IN.drop off).take n

/-- `MemWrite(off, n, v)` sets `OUT[off..off+n)` to the `n` bytes `v`; used only with no gap below `off` (R29). -/
def memWrite (OUT : Bytes) (off : Nat) (v : Bytes) : Bytes :=
  OUT.take off ++ v ++ OUT.drop (off + v.length)

/-- The byte `IN[off]`, defined only when it exists (R28). -/
def byteAt (IN : Bytes) (off : Nat) (inside : off < IN.length) : Byte := IN[off]

end Sys2Proof.Machine
end

