-- ==== Sys2Proof/Machine/Ops.lean ====
section
/-! DEFINITION. The shared operations over the state: ending an operation with a result or an error, writing `SEQ`,
handing out what an operation yields, and taking the next input. -/

namespace Sys2Proof.Machine

/-- `return (OK, B)` (spec 00_scope.md R10). -/
def returnOk (B : Bytes) : Result := { status := .ok, out := B }

/-- `raise <Error>(info)`: a value, `(<Error>, info)`. It ends the operation, and since it is only a result it writes
nothing: `SEQ` keeps its value, and nothing is saved anywhere (R95, R96). There is no return from it (R98). -/
def raise (e : Err) (info : Bytes) : Result := { status := e.status, out := info }

/-- `SEQ <- v` (R10). -/
def State.setSeq (s : State) (v : Word16) : State := { s with codec := { s.codec with seq := v } }

/-- Hand out one event; nothing of the block itself changes. -/
def State.post (s : State) (e : Event) : State :=
  { s with port := { s.port with transcript := e :: s.port.transcript } }

/-- Replace the inputs not yet taken. -/
def State.withPending (s : State) (l : List Signal) : State :=
  { s with port := { s.port with pending := l } }

/-- The next input, with the state in which it has been taken: inputs are taken whole, one at a time, in the order
presented (R34, R37, R40). Nothing when none is pending (R19). -/
def fetch (s : State) : Option (Signal × State) :=
  match s.pending with
  | [] => none
  | sig :: rest => some (sig, s.withPending rest)

/-- The result an event is, if it is one. -/
def Event.result? : Event → Option (Op × Result)
  | .result op r => some (op, r)
  | .resetTaken => none
  | .header _ => none
  | .channel _ => none
  | .length _ => none
  | .advanced _ => none

/-- The results handed to the caller, newest first. -/
def State.results (s : State) : List (Op × Result) := s.transcript.filterMap Event.result?

end Sys2Proof.Machine
end

