-- ==== Sys2Proof/Machine/SequenceCounter.lean ====
section
/-! DEFINITION. The sequence-counter state machine (spec 41_sequence_counter.md). -/

namespace Sys2Proof.Machine

/-- SEQ_ADVANCE: the sum is a natural number, compared before it is narrowed (R67). -/
def seqAdvance (v : Word16) : Word16 :=
  if v.toNat + 1 > Config.MAX_SEQ_NUMBER then 0#16 else BitVec.ofNat 16 (v.toNat + 1)

/-- SEQ_ADVANCE as an operation: it yields its value and writes no state (R67). -/
def execSeqAdvance (v : Word16) (s : State) : Host.Outcome State Fault Refusal :=
  .next (s.post (.advanced (seqAdvance v)))

end Sys2Proof.Machine
end

