-- ==== Sys2Proof/Machine/HeaderCodec.lean ====
section
/-! DEFINITION. The Header Codec (spec 40_header_codec.md). Each operation has its precondition as a hypothesis; the
meanings refuse outside it (R65). -/

namespace Sys2Proof.Machine

/-- ENCODE_HEADER: the header carrying the old sequence number, and the new value of `SEQ` (R61). -/
def encodeHeader (p : Params) (seq : Word16) (L : Nat) (_fits : L ≤ maxPayload p.lenMode) : Bytes × Word16 :=
  (headerBytes (txChannel p.role) L seq, seqAdvance seq)

/-- DECODE_CHANNEL: `F[0]` (R62). -/
def decodeChannel (F : Bytes) (nonempty : 1 ≤ F.length) : Byte :=
  byteAt F 0 nonempty

/-- DECODE_LENGTH: both length bytes under LEN16, the low one alone under LEN8 (R51, R63). -/
def decodeLength (m : LenMode) (F : Bytes) (long : 4 ≤ F.length) : Word16 :=
  match m with
  | .len16 => be16 (byteAt F 2 (by omega)) (byteAt F 3 long)
  | .len8 => zext16 (byteAt F 3 long)

/-- ENCODE_HEADER as an operation of its own: it yields the header and writes `SEQ` (R61); outside its precondition it
is refused, with no truncated length and no advance (R65). -/
def execEncodeHeader (L : Nat) (s : State) : Host.Outcome State Fault Refusal :=
  if fits : L ≤ maxPayload s.params.lenMode then
    let r := encodeHeader s.params s.seq L fits
    .next ((s.setSeq r.2).post (.header r.1))
  else .refused .headerLengthTooLarge

/-- DECODE_CHANNEL as an operation of its own (R62, R65). -/
def execDecodeChannel (F : Bytes) (s : State) : Host.Outcome State Fault Refusal :=
  if nonempty : 1 ≤ F.length then .next (s.post (.channel (decodeChannel F nonempty)))
  else .refused .channelOfEmptyFrame

/-- DECODE_LENGTH as an operation of its own (R63, R65). -/
def execDecodeLength (F : Bytes) (s : State) : Host.Outcome State Fault Refusal :=
  if long : 4 ≤ F.length then .next (s.post (.length (decodeLength s.params.lenMode F long)))
  else .refused .lengthOfShortFrame

end Sys2Proof.Machine
end

