-- ==== Sys2Proof/Machine/PacketCodec.lean ====
section
/-! DEFINITION. The Packet Codec: the frame assembler, the payload slicer, and the arrival of a frame
(spec 42_packet_codec.md). -/

namespace Sys2Proof.Machine

/-- ENCODE as the function of R11 and R76: from the parameters, `SEQ` and the payload to the result and the next `SEQ`.
The size test comes first; the frame is the header, then the payload. -/
def encodeFrame (p : Params) (seq : Word16) (IN : Bytes) : Result × Word16 :=
  if fits : IN.length ≤ maxPayload p.lenMode then
    let r := encodeHeader p seq IN.length fits
    (returnOk (memWrite (memWrite [] 0 r.1) Config.HDR_LEN IN), r.2)
  else (raise .payloadTooLarge [], seq)

/-- SLICE: the `n` bytes of `F` from offset `off`, copied to a fresh result: `MemWrite(0, n, MemRead(off, n))` (R81). -/
def slice (F : Bytes) (off n : Nat) (inside : off + n ≤ F.length) : Bytes :=
  memWrite [] 0 (memRead F off n inside)

/-- DECODE as a function of the parameters and the operand alone: the four tests in their order (R79, R80). The sum
`HDR_LEN + L` is a natural number (decision D24). -/
def decodeFrame (p : Params) (IN : Bytes) : Result :=
  if nonempty : 1 ≤ IN.length then
    if decodeChannel IN nonempty = rxChannel p.role then
      if header : Config.HDR_LEN ≤ IN.length then
        let L := (decodeLength p.lenMode IN (Nat.le_trans (by decide) header)).toNat
        if whole : Config.HDR_LEN + L ≤ IN.length then returnOk (slice IN Config.HDR_LEN L whole)
        else raise .truncatedFrame []
      else raise .truncatedFrame []
    else raise .unexpectedFrame IN
  else raise .truncatedFrame []

/-- ENCODE: one indivisible read, use and write of `SEQ` (R35, R76). -/
def execEncode (IN : Bytes) (s : State) : Host.Outcome State Fault Refusal :=
  let r := encodeFrame s.params s.seq IN
  .next ((s.setSeq r.2).post (.result .encode r.1))

/-- DECODE: it writes no state (R79, R84). -/
def execDecode (IN : Bytes) (s : State) : Host.Outcome State Fault Refusal :=
  .next (s.post (.result .decode (decodeFrame s.params IN)))

/-- A frame arrives from the transport and is presented to DECODE (R102; log 8). A payload that no length field can
say makes no frame (R43; log 22). -/
def receiveFrame (channel : Byte) (seqNo : Word16) (payload : Bytes) (s : State) :
    Host.Outcome State Fault Refusal :=
  if payload.length ≤ 65535 then
    .next (s.post (.result .decode (decodeFrame s.params (frameBytes channel seqNo payload))))
  else .refused .frameTooLong

/-- FRAME.A2B: accepted by an instance of `ROLE = B`, rejected by one of `ROLE = A` (R45, R52). -/
def execFrameA2B (seqNo : Word16) (payload : Bytes) (s : State) : Host.Outcome State Fault Refusal :=
  receiveFrame Config.CH_A2B seqNo payload s

/-- FRAME.B2A: accepted by an instance of `ROLE = A`, rejected by one of `ROLE = B` (R45, R52). -/
def execFrameB2A (seqNo : Word16) (payload : Bytes) (s : State) : Host.Outcome State Fault Refusal :=
  receiveFrame Config.CH_B2A seqNo payload s

end Sys2Proof.Machine
end

