-- ==== Sys2Proof/Machine/ResetInput.lean ====
section
/-! DEFINITION. The reset input (spec 70_reset_and_hazards.md R105, R106). -/

namespace Sys2Proof.Machine

/-- RESET: `SEQ` becomes 0, which is its whole effect; it has no result, and the parameters stay (R105). The event is
the model's mark (log 4). -/
def execReset (s : State) : Host.Outcome State Fault Refusal :=
  .next ((s.setSeq 0#16).post .resetTaken)

end Sys2Proof.Machine
end

