-- ==== Sys2Proof/Machine/Dispatch.lean ====
section
/-! DEFINITION. One arm per row of spec/opcode_table.json. -/

namespace Sys2Proof.Machine

def exec (i : Instr) (s : State) : Host.Outcome State Fault Refusal :=
  match i with
  | .encode IN => Sys2Proof.Machine.execEncode IN s
  | .decode IN => Sys2Proof.Machine.execDecode IN s
  | .reset => Sys2Proof.Machine.execReset s
  | .encodeHeader L => Sys2Proof.Machine.execEncodeHeader L s
  | .decodeChannel F => Sys2Proof.Machine.execDecodeChannel F s
  | .decodeLength F => Sys2Proof.Machine.execDecodeLength F s
  | .seqAdvance v => Sys2Proof.Machine.execSeqAdvance v s
  | .frameA2B seqNo payload => Sys2Proof.Machine.execFrameA2B seqNo payload s
  | .frameB2A seqNo payload => Sys2Proof.Machine.execFrameB2A seqNo payload s

end Sys2Proof.Machine
end

