-- ==== Sys2Proof/Machine/Step.lean ====
section
/-! DEFINITION. One step: take the next input the caller presents and perform it, whole (spec 00_scope.md R9,
20_memory.md R34). The block has no program counter and fetches nothing (10_state.md R19; log 12). -/

namespace Sys2Proof.Machine

/-- With nothing pending the block simply holds `SEQ` (R19, R103; log 5). An input is taken whole and performed; a reset
input that is not asserted asks nothing (log 15); a signal that encodes no operation is refused by name (log 10). -/
def step (s : State) : Host.Outcome State Fault Refusal :=
  match fetch s with
  | none => .next s
  | some (sig, taken) =>
    match decode sig with
    | .ok i => exec i taken
    | .error .resetNotAsserted => .next taken
    | .error e => .refused (.undecodable e)

/-- Present the operation of an opcode-table word as the very next input, ahead of what was pending; a width that is no
row's presents nothing (log 12, log 21). -/
def State.withFetchWord (s : State) (nbits w : Nat) : State :=
  match signalOfTableWord nbits w with
  | some sig => s.withPending (sig :: s.pending)
  | none => s.withPending []

end Sys2Proof.Machine
end

