-- ==== Sys2Proof/Machine/Script.lean ====
section
/-! DEFINITION. The written form of commands, and several instances side by side (spec 30_encoding.md R60,
60_exceptions.md R102). Text is a list of characters; nothing of this is state of a block (log 23). -/

namespace Sys2Proof.Machine

/-- A hexadecimal digit, as the spec's examples write it. -/
def hexDigit (n : Nat) : Char := if n < 10 then Char.ofNat (48 + n) else Char.ofNat (55 + n)

/-- The value of a hexadecimal digit of either case. -/
def hexValue (c : Char) : Option Nat :=
  if 48 ≤ c.toNat ∧ c.toNat ≤ 57 then some (c.toNat - 48)
  else if 65 ≤ c.toNat ∧ c.toNat ≤ 70 then some (c.toNat - 55)
  else if 97 ≤ c.toNat ∧ c.toNat ≤ 102 then some (c.toNat - 87)
  else none

/-- Bytes as pairs of hexadecimal digits, first byte leftmost (R10, R60). -/
def showHex (B : Bytes) : List Char := B.flatMap (fun b => [hexDigit (b.toNat / 16), hexDigit (b.toNat % 16)])

/-- An even number of hexadecimal digits, spaces allowed between bytes (R60). -/
def readHex : List Char → Option Bytes
  | [] => some []
  | ' ' :: rest => readHex rest
  | a :: b :: rest =>
    match hexValue a, hexValue b, readHex rest with
    | some hi, some lo, some B => some (BitVec.ofNat 8 (hi * 16 + lo) :: B)
    | _, _, _ => none
  | [_] => none

/-- A decimal number, at least one digit, spaces allowed around it. -/
def readDecimal (l : List Char) : Option Nat :=
  match l.filter (· != ' ') with
  | [] => none
  | digits =>
    digits.foldl (fun acc c =>
      match acc with
      | some n => if 48 ≤ c.toNat ∧ c.toNat ≤ 57 then some (n * 10 + (c.toNat - 48)) else none
      | none => none) (some 0)

/-- `<n>*<hh>`: `n` copies of the byte `hh` (R60). -/
def readCopies (l : List Char) : Option Bytes :=
  match readDecimal (l.takeWhile (· != '*')), readHex ((l.dropWhile (· != '*')).drop 1) with
  | some n, some [b] => some (List.replicate n b)
  | _, _ => none

/-- The operand after the word of a command; none written means `N = 0` (R60). -/
def readOperand (copies : Bool) (l : List Char) : Option Bytes :=
  match l with
  | [] => some []
  | ' ' :: rest => if copies && rest.contains '*' then readCopies rest else readHex rest
  | _ => none

/-- `RESET`, `ENCODE <hex>`, `ENCODE <n>*<hh>` or `DECODE <hex>` (R60). -/
def readCommand : List Char → Option Signal
  | 'R' :: 'E' :: 'S' :: 'E' :: 'T' :: rest => if rest.all (· == ' ') then some (.rst 1#1) else none
  | 'E' :: 'N' :: 'C' :: 'O' :: 'D' :: 'E' :: rest => (readOperand true rest).map (.cmd 0#1)
  | 'D' :: 'E' :: 'C' :: 'O' :: 'D' :: 'E' :: rest => (readOperand false rest).map (.cmd 1#1)
  | _ => none

/-- A line of a script: the name of the instance it is given to, if it has one, and what is presented (R60). -/
structure ScriptLine where
  name : Option (List Char)
  signal : Signal
  deriving DecidableEq, Repr

/-- A line of a script. What follows `;` is comment, and what follows `->` is the result shown (R60). -/
def readLine (l : List Char) : Option ScriptLine :=
  let line := (l.takeWhile (fun c => c != ';' && c != '-')).dropWhile (· == ' ')
  if line.contains ':' then
    (readCommand (((line.dropWhile (· != ':')).drop 1).dropWhile (· == ' '))).map
      (fun sig => { name := some (line.takeWhile (· != ':')), signal := sig })
  else (readCommand line).map (fun sig => { name := none, signal := sig })

/-- The word of a command (R60). -/
def Op.word : Op → List Char
  | .encode => ['E', 'N', 'C', 'O', 'D', 'E']
  | .decode => ['D', 'E', 'C', 'O', 'D', 'E']

/-- A command as a line of a script (R60). -/
def showCommand (op : Op) (IN : Bytes) : List Char :=
  match IN with
  | [] => op.word
  | b :: rest => op.word ++ ' ' :: showHex (b :: rest)

/-- The name of a status (R88). -/
def Status.name : Status → List Char
  | .ok => "OK".toList
  | .unexpectedFrame => "UnexpectedFrame".toList
  | .truncatedFrame => "TruncatedFrame".toList
  | .payloadTooLarge => "PayloadTooLarge".toList

/-- A result as the script shows it after `->`; `[]` is the empty sequence (R60). -/
def showResult (r : Result) : List Char :=
  r.status.name ++ ' ' :: (match r.out with
    | [] => ['[', ']']
    | b :: rest => showHex (b :: rest))

/-- Several instances, each under the name the script gives it. They share nothing, and no instance knows its name
(R102). -/
abbrev Bench := List (List Char × State)

/-- One line of a script: the signal is presented to the named instance (the first, where the line names none) and
performed, ahead of anything that instance has pending. Nothing where no instance has the name or the step has no
meaning. -/
def performLine (l : ScriptLine) : Bench → Option Bench
  | [] => none
  | (n, s) :: rest =>
    if l.name = none ∨ l.name = some n then
      match step (s.withPending (l.signal :: s.pending)) with
      | .next t => some ((n, t) :: rest)
      | .fault _ => none
      | .refused _ => none
    else (performLine l rest).map ((n, s) :: ·)

end Sys2Proof.Machine
end

