-- ==== Sys2Proof/Safety.lean ====
section
/-! DEFINITION. The terms claims use: which inputs a caller can present, what results can look like, and how the
sequence numbers of a transcript hang together. Nothing here is state of the block (spec 10_state.md R20). -/

namespace Sys2Proof.Machine

/-- The frame of an operation: `t` has the parameters and the pending inputs of `s`, everything handed out before
still stands, and exactly the event `e` was handed out. `SEQ` is left to each statement. -/
def Yields (s t : State) (e : Event) : Prop :=
  t.params = s.params ∧ t.pending = s.pending ∧ t.transcript = e :: s.transcript

/-- What a caller or the transport can present: a command, the reset input, a received buffer. The internal operations
have no selector (R58, D5). -/
def callerMayPresent : Signal → Bool
  | .cmd _ _ => true
  | .rst _ => true
  | .received _ => true
  | .hdrEncode _ => false
  | .hdrChannel _ => false
  | .hdrLength _ => false
  | .fn _ => false

/-- Every pending input is one the caller can present. -/
def State.CallerOnly (s : State) : Bool := s.pending.all callerMayPresent

/-- The reset input. -/
def isResetInput : Signal → Bool
  | .rst _ => true
  | .cmd _ _ => false
  | .received _ => false
  | .hdrEncode _ => false
  | .hdrChannel _ => false
  | .hdrLength _ => false
  | .fn _ => false

/-- No pending input is the reset input. -/
def State.NoResetPending (s : State) : Bool := s.pending.all (fun sig => !isResetInput sig)

/-- A command (a received buffer is the operand of one): it is owed exactly one result (R59, R117). -/
def isCommand : Signal → Bool
  | .cmd _ _ => true
  | .received _ => true
  | .rst _ => false
  | .hdrEncode _ => false
  | .hdrChannel _ => false
  | .hdrLength _ => false
  | .fn _ => false

/-- The header of a frame this instance can have built: its own channel, the data message type, and a length field
that says exactly how many bytes of `payload` follow (R41, R45, R46, R78). -/
def builtHeader (p : Params) (out : Bytes) (payloadLength : Nat) : Bool :=
  match out with
  | c :: m :: l1 :: l0 :: _ :: _ :: _ =>
    c == txChannel p.role && m == Config.MSG_DATA && (be16 l1 l0).toNat == payloadLength
      && decide (payloadLength ≤ maxPayload p.lenMode)
  | _ => false

/-- The combinations of operation, status and `OUT` that R59 and R88 list, for an instance with parameters `p`. -/
def Result.legal (p : Params) (op : Op) (r : Result) : Bool :=
  match op, r.status with
  | .encode, .ok => builtHeader p r.out (r.out.length - 6)
  | .encode, .payloadTooLarge => r.out == []
  | .encode, .unexpectedFrame => false
  | .encode, .truncatedFrame => false
  | .decode, .ok => decide (r.out.length ≤ maxPayload p.lenMode)
  | .decode, .unexpectedFrame =>
    match r.out with
    | c :: _ => c != rxChannel p.role
    | [] => false
  | .decode, .truncatedFrame => r.out == []
  | .decode, .payloadTooLarge => false

/-- What the instance can hand out. -/
def Event.legal (p : Params) : Event → Bool
  | .result op r => r.legal p op
  | .resetTaken => true
  | .header h => h.length == 6 && match h with
    | [c, m, l1, l0, _, _] =>
      c == txChannel p.role && m == Config.MSG_DATA && decide ((be16 l1 l0).toNat ≤ maxPayload p.lenMode)
    | _ => false
  | .channel _ => true
  | .length l => decide (l.toNat ≤ maxPayload p.lenMode)
  | .advanced _ => true

/-- Everything handed out so far is legal. -/
def State.EventsLegal (s : State) : Bool := s.transcript.all (fun e => e.legal s.params)

/-- The header bytes an event carries a sequence number in: a frame ENCODE built, or an internal ENCODE_HEADER's header. -/
def Event.built? : Event → Option Bytes
  | .result .encode { status := .ok, out := out } => some out
  | .result .encode { status := .unexpectedFrame, out := _ } => none
  | .result .encode { status := .truncatedFrame, out := _ } => none
  | .result .encode { status := .payloadTooLarge, out := _ } => none
  | .result .decode _ => none
  | .resetTaken => none
  | .header h => some h
  | .channel _ => none
  | .length _ => none
  | .advanced _ => none

/-- The sequence number at offsets 4 and 5 (R47). -/
def carriedSeq : Bytes → Option Word16
  | _ :: _ :: _ :: _ :: s1 :: s0 :: _ => some (be16 s1 s0)
  | _ => none

/-- The value of `SEQ` after a transcript (newest first) that began at `b`: a reset puts it to 0, a built header moves it
on by one modulo 65536, and nothing else touches it (R73). -/
def seqAfter (b : Word16) : List Event → Word16
  | [] => b
  | e :: earlier =>
    if e = .resetTaken then 0#16
    else if e.built?.isSome then seqAfter b earlier + 1#16
    else seqAfter b earlier

/-- Every built header of a transcript carries the value `SEQ` had before it (R69). -/
def numbered (b : Word16) : List Event → Bool
  | [] => true
  | e :: earlier =>
    numbered b earlier &&
      match e.built? with
      | some out => carriedSeq out == some (seqAfter b earlier)
      | none => true

/-- `SEQ` is what the transcript says it is, and the transcript is numbered without a break (R73, R75). -/
def State.Numbered (b : Word16) (s : State) : Bool :=
  s.seq == seqAfter b s.transcript && numbered b s.transcript

/-- How many frames ENCODE built in a list of events (R74 counts "only successful ones"). -/
def framesBuilt (l : List Event) : Nat := l.countP (fun e =>
  match e with
  | .result .encode { status := .ok, out := _ } => true
  | _ => false)

end Sys2Proof.Machine
end

