-- ==== Sys2Proof/Certificates/Slice0/Obligations.lean ====
section
/-! DEFINITION. The statements for the provers. Each docstring names the rule of spec/ it formalises; what is the
model's own choice is said, with its log entry. -/

open Sys2Proof Sys2Proof.Machine

/-! ### Reset and parameters -/

/-- R16: the reset value of `SEQ` is 0. -/
def Obligations.ResetStateHasSeqZero : Prop := State.reset.seq = 0#16

/-- The state after reset meets each invariant stated below. Its empty lists are the model's choice (log 3, log 4), its
parameters the spec's decisions D2 and D3 (log 2). -/
def Obligations.ResetStateMeetsEveryInvariant : Prop :=
  State.reset.Numbered 0#16 = true ∧ State.reset.EventsLegal = true ∧ State.reset.CallerOnly = true ∧
    State.reset.params = { role := .A, lenMode := .len16 }

/-- What `ROLE` and `LEN_MODE` select (R5, R6, R7; decisions D2, D3). -/
def Obligations.ParametersSelectChannelsAndMaxPayload : Prop :=
  txChannel .A = 0x30#8 ∧ rxChannel .A = 0x31#8 ∧ txChannel .B = 0x31#8 ∧ rxChannel .B = 0x30#8 ∧
    maxPayload .len16 = 65535 ∧ maxPayload .len8 = 255

/-- R105: reset sets `SEQ` to 0 and does nothing else; it has no result. -/
def Obligations.ResetInputClearsSeqAndNothingElse : Prop :=
  ∀ s : State, ∃ t, exec .reset s = .next t ∧ t.seq = 0#16 ∧ t.params = s.params ∧ t.pending = s.pending ∧
    t.results = s.results

/-- No step changes the parameters or what was handed out before, and a step hands out at most one event (R6 "never
changed by an operation", R21). That a step's outcome stands in a transcript is the model's choice (log 4). -/
def Obligations.StepNeverChangesParameters : Prop :=
  ∀ s t : State, step s = .next t →
    t.params = s.params ∧ ∃ new, new.length ≤ 1 ∧ t.transcript = new ++ s.transcript

/-! ### Header Codec -/

/-- R61: the six header bytes in order, carrying the value of `SEQ` before the call; then `SEQ` is advanced, once. -/
def Obligations.EncodeHeaderWritesHeaderThenAdvances : Prop :=
  ∀ (s : State) (L : Nat), L ≤ maxPayload s.params.lenMode →
    ∃ (t : State) (l1 l0 s1 s0 : Byte), exec (.encodeHeader L) s = .next t ∧
      Yields s t (.header [txChannel s.params.role, 0xA1#8, l1, l0, s1, s0]) ∧
      l1.toNat = L / 256 ∧ l0.toNat = L % 256 ∧ s1.toNat = s.seq.toNat / 256 ∧ s0.toNat = s.seq.toNat % 256 ∧
      t.seq.toNat = (if s.seq.toNat + 1 > 65535 then 0 else s.seq.toNat + 1)

/-- The header ENCODE_HEADER yields, read as one 48-bit big-endian number, is the row's pattern in spec/opcode_table.json:
channel and message type in the high 16 bits, then the length, then the sequence number (R44, which the spec derives). -/
def Obligations.HeaderFitsTheTablePattern : Prop :=
  ∀ (s : State) (L : Nat), L ≤ maxPayload s.params.lenMode →
    ∃ (t : State) (h : Bytes), exec (.encodeHeader L) s = .next t ∧ Yields s t (.header h) ∧ h.length = 6 ∧
      (h.foldl (fun n b => n * 256 + b.toNat) 0) / 4294967296 = (if s.params.role = .A then 0x30A1 else 0x31A1) ∧
      (h.foldl (fun n b => n * 256 + b.toNat) 0) / 65536 % 65536 = L ∧
      (h.foldl (fun n b => n * 256 + b.toNat) 0) % 65536 = s.seq.toNat

/-- R62: the byte at offset 0, whatever follows; no state is written. -/
def Obligations.DecodeChannelReturnsFirstByte : Prop :=
  ∀ (s : State) (c : Byte) (rest : Bytes),
    ∃ t, exec (.decodeChannel (c :: rest)) s = .next t ∧ Yields s t (.channel c) ∧ t.seq = s.seq

/-- R63 (decision D2): both length bytes, high byte first, under LEN16; the low byte alone under LEN8. -/
def Obligations.DecodeLengthReadsTheDeclaredLength : Prop :=
  ∀ (s : State) (b0 b1 hi lo : Byte) (rest : Bytes),
    ∃ (t : State) (l : Word16), exec (.decodeLength (b0 :: b1 :: hi :: lo :: rest)) s = .next t ∧
      Yields s t (.length l) ∧ t.seq = s.seq ∧
      (s.params.lenMode = .len16 → l.toNat = hi.toNat * 256 + lo.toNat) ∧
      (s.params.lenMode = .len8 → l.toNat = lo.toNat)

/-- Outside its precondition an internal operation is refused by name (R65, decision D5; log 7); so is a frame term whose
payload no length field can say, which is the model's choice (log 22). -/
def Obligations.RefusedOutsideThePrecondition : Prop :=
  (∀ (s : State) (L : Nat), maxPayload s.params.lenMode < L →
    exec (.encodeHeader L) s = .refused .headerLengthTooLarge) ∧
  (∀ s : State, exec (.decodeChannel []) s = .refused .channelOfEmptyFrame) ∧
  (∀ (s : State) (F : Bytes), F.length < 4 → exec (.decodeLength F) s = .refused .lengthOfShortFrame) ∧
  (∀ (s : State) (n : Word16) (p : Bytes), 65535 < p.length →
    exec (.frameA2B n p) s = .refused .frameTooLong ∧ exec (.frameB2A n p) s = .refused .frameTooLong)

/-- Reading a 16-bit field that was written gives it back; the read form is `hi * 256 + lo`; and of both fields of a
header the high byte stands at the lower offset (R50). The read form, and so the reading back, is the spec's own
derivation, "as the inverse of the write form". -/
def Obligations.SixteenBitFieldsReadBack : Prop :=
  (∀ v : Word16, be16 (hiByte v) (loByte v) = v) ∧
  (∀ v : Word16, (hiByte v).toNat = v.toNat / 256 ∧ (loByte v).toNat = v.toNat % 256) ∧
  (∀ hi lo : Byte, (be16 hi lo).toNat = hi.toNat * 256 + lo.toNat) ∧
  (∀ (c : Byte) (l n : Word16),
    (headerBytes c l.toNat n)[2]? = some (hiByte l) ∧ (headerBytes c l.toNat n)[3]? = some (loByte l) ∧
    (headerBytes c l.toNat n)[4]? = some (hiByte n) ∧ (headerBytes c l.toNat n)[5]? = some (loByte n))

/-! ### Sequence counter -/

/-- R67: the un-wrapped sum is compared with 65535; beyond it the result is 0. No state is written. -/
def Obligations.SeqAdvanceComparesTheUnwrappedSum : Prop :=
  ∀ (s : State) (v : Word16), ∃ (t : State) (w : Word16), exec (.seqAdvance v) s = .next t ∧
    Yields s t (.advanced w) ∧ t.seq = s.seq ∧
    (v.toNat + 1 > 65535 → w.toNat = 0) ∧ (v.toNat + 1 ≤ 65535 → w.toNat = v.toNat + 1)

/-- The counter is one cycle of length 65536: applied `n` times it is back where it started exactly when 65536 divides
`n` (R68, R73, R115, which the spec derives). -/
def Obligations.SeqAdvanceIsOneCycleOf65536 : Prop :=
  ∀ (v : Word16) (n : Nat), seqAdvance^[n] v = v ↔ 65536 ∣ n

/-- R14, for inputs a caller can present: `SEQ` is written by an ENCODE that returns OK, which advances it once, and by
reset; in every other step it keeps its value, and no ENCODE returned OK. -/
def Obligations.SeqIsWrittenOnlyByEncodeAndReset : Prop :=
  ∀ s t : State, s.CallerOnly = true → step s = .next t →
    (∃ out, t.transcript = .result .encode { status := .ok, out := out } :: s.transcript ∧
      t.seq.toNat = (s.seq.toNat + 1) % 65536) ∨
    (t.transcript = .resetTaken :: s.transcript ∧ t.seq = 0#16) ∨
    (t.seq = s.seq ∧ t.transcript ≠ .resetTaken :: s.transcript ∧
      ∀ out, t.transcript ≠ .result .encode { status := .ok, out := out } :: s.transcript)

/-- From every state whose transcript is numbered without a break from `b`, a step gives such a state: each built header
carries the value `SEQ` had, moves it on by one, and nothing but a reset breaks the chain (R69, R73). The transcript is
the model's record (log 4), and an internal ENCODE_HEADER counts as a header built (log 6). -/
def Obligations.StepKeepsTheNumbering : Prop :=
  ∀ (b : Word16) (s t : State), s.Numbered b = true → step s = .next t → t.Numbered b = true

/-- In a numbered state two built frames with no reset and no other built header between them carry consecutive numbers,
65535 being followed by 0 (R75). -/
def Obligations.ConsecutiveFramesCarryConsecutiveNumbers : Prop :=
  ∀ (b : Word16) (s : State) (later between earlier : List Event) (f g : Bytes),
    s.Numbered b = true →
    s.transcript = later ++ .result .encode { status := .ok, out := g } ::
      (between ++ .result .encode { status := .ok, out := f } :: earlier) →
    (∀ e ∈ between, e ≠ .resetTaken ∧ e.built? = none) →
    ∃ n m : Word16, carriedSeq f = some n ∧ carriedSeq g = some m ∧
      (n.toNat < 65535 → m.toNat = n.toNat + 1) ∧ (n.toNat = 65535 → m.toNat = 0)

/-- Any number of steps over inputs a caller can present, none of them reset, completes; `SEQ` has moved on by the number
of frames built, and each of those frames carries the number of frames built before it, counted from `SEQ` at the start,
modulo 65536 (R74, R117, which the spec derives). That inputs wait in a list is the model's choice (log 3). -/
def Obligations.RunsCompleteAndNumberEveryFrame : Prop :=
  ∀ (k : Nat) (s : State), s.CallerOnly = true → s.NoResetPending = true →
    ∃ (t : State) (new : List Event), Host.Core.run core k s = .next t ∧ t.transcript = new ++ s.transcript ∧
      t.params = s.params ∧ t.pending = s.pending.drop k ∧
      t.seq.toNat = (s.seq.toNat + framesBuilt new) % 65536 ∧
      ∀ (later earlier : List Event) (out : Bytes),
        new = later ++ .result .encode { status := .ok, out := out } :: earlier →
        ∃ n, carriedSeq out = some n ∧ n.toNat = (s.seq.toNat + framesBuilt earlier) % 65536

/-! ### ENCODE -/

/-- R76: a payload that fits gives the frame, header then payload, and `SEQ` advanced once; one that does not gives
`PayloadTooLarge` with nothing written and `SEQ` as it was. -/
def Obligations.EncodeBuildsTheFrameOrReportsTooLarge : Prop :=
  ∀ (s : State) (IN : Bytes),
    (IN.length ≤ maxPayload s.params.lenMode →
      ∃ (t : State) (l1 l0 s1 s0 : Byte), exec (.encode IN) s = .next t ∧
        Yields s t (.result .encode
          { status := .ok, out := [txChannel s.params.role, 0xA1#8, l1, l0, s1, s0] ++ IN }) ∧
        l1.toNat = IN.length / 256 ∧ l0.toNat = IN.length % 256 ∧
        s1.toNat = s.seq.toNat / 256 ∧ s0.toNat = s.seq.toNat % 256 ∧
        t.seq.toNat = (s.seq.toNat + 1) % 65536) ∧
    (maxPayload s.params.lenMode < IN.length →
      ∃ t, exec (.encode IN) s = .next t ∧
        Yields s t (.result .encode { status := .payloadTooLarge, out := [] }) ∧ t.seq = s.seq)

/-- R77: the empty payload gives exactly the 6-byte header, with length field 0, and `SEQ` advances as for any other. -/
def Obligations.EncodeOfTheEmptyPayload : Prop :=
  ∀ s : State, ∃ t, exec (.encode []) s = .next t ∧
    Yields s t (.result .encode { status := .ok, out :=
      [txChannel s.params.role, 0xA1#8, 0x00#8, 0x00#8, (s.seq >>> 8).setWidth 8, s.seq.setWidth 8] }) ∧
    t.seq = s.seq + 1#16

/-- Two successful ENCODEs of one payload at ends of one `ROLE` give frames that can differ in bytes 4 and 5 only: the
frame is a function of the role, the sequence number and the payload (R78, which the spec derives). -/
def Obligations.FramesOfOnePayloadDifferInTheSequenceOnly : Prop :=
  ∀ (x y : State) (p : Bytes), x.params.role = y.params.role →
    p.length ≤ maxPayload x.params.lenMode → p.length ≤ maxPayload y.params.lenMode →
    ∃ (x' y' : State) (f g : Bytes), exec (.encode p) x = .next x' ∧ exec (.encode p) y = .next y' ∧
      Yields x x' (.result .encode { status := .ok, out := f }) ∧
      Yields y y' (.result .encode { status := .ok, out := g }) ∧
      f.length = g.length ∧ (∀ i, i ≠ 4 → i ≠ 5 → f[i]? = g[i]?) ∧ (x.seq = y.seq ↔ f = g)

/-! ### DECODE -/

/-- The result of DECODE for every operand, in the order of its tests: empty, channel, header, payload (R79, R80; decision
D8 for the order, D9 for what the errors carry, D10 for the surplus). No state is written. -/
def Obligations.DecodeResultForEveryOperand : Prop :=
  ∀ (s : State) (IN : Bytes), ∃ (t : State) (r : Result), exec (.decode IN) s = .next t ∧
    Yields s t (.result .decode r) ∧ t.seq = s.seq ∧
    (IN = [] → r = { status := .truncatedFrame, out := [] }) ∧
    (∀ c rest, IN = c :: rest → c ≠ rxChannel s.params.role → r = { status := .unexpectedFrame, out := IN }) ∧
    (∀ rest, IN = rxChannel s.params.role :: rest → IN.length < 6 → r = { status := .truncatedFrame, out := [] }) ∧
    (∀ m hi lo s1 s0 body, IN = rxChannel s.params.role :: m :: hi :: lo :: s1 :: s0 :: body →
      ∀ L, (s.params.lenMode = .len16 → L = hi.toNat * 256 + lo.toNat) → (s.params.lenMode = .len8 → L = lo.toNat) →
      (IN.length < 6 + L → r = { status := .truncatedFrame, out := [] }) ∧
      (6 + L ≤ IN.length → r = { status := .ok, out := body.take L } ∧ r.out.length = L))

/-- R52, R85: any byte at offset 0 but the inbound constant, the instance's own outbound constant among them, gives
`UnexpectedFrame` carrying the whole operand unchanged. -/
def Obligations.DecodeRejectsEveryOtherChannel : Prop :=
  (∀ (s : State) (c : Byte) (rest : Bytes), c ≠ rxChannel s.params.role →
    ∃ t, exec (.decode (c :: rest)) s = .next t ∧
      Yields s t (.result .decode { status := .unexpectedFrame, out := c :: rest }) ∧ t.seq = s.seq) ∧
  (∀ (s : State) (rest : Bytes), ∃ t, exec (.decode (txChannel s.params.role :: rest)) s = .next t ∧
    Yields s t (.result .decode { status := .unexpectedFrame, out := txChannel s.params.role :: rest }) ∧ t.seq = s.seq)

/-- The message type and the sequence number of a received frame make no difference to what DECODE returns (R54, R56;
decisions D11, D12). -/
def Obligations.DecodeIgnoresTypeAndSequenceBytes : Prop :=
  ∀ (s : State) (m m' hi lo s1 s1' s0 s0' : Byte) (body : Bytes), ∃ (t t' : State) (r : Result),
    exec (.decode (rxChannel s.params.role :: m :: hi :: lo :: s1 :: s0 :: body)) s = .next t ∧
    exec (.decode (rxChannel s.params.role :: m' :: hi :: lo :: s1' :: s0' :: body)) s = .next t' ∧
    Yields s t (.result .decode r) ∧ Yields s t' (.result .decode r) ∧ r.status ≠ .unexpectedFrame

/-- R55: under LEN8 the length high byte is sent as 0 and, on receive, makes no difference. -/
def Obligations.LengthHighByteUnderLen8 : Prop :=
  ∀ s : State, s.params.lenMode = .len8 →
    (∀ IN : Bytes, IN.length ≤ maxPayload s.params.lenMode → ∃ (t : State) (out : Bytes),
      exec (.encode IN) s = .next t ∧ Yields s t (.result .encode { status := .ok, out := out }) ∧
        out[2]? = some 0x00#8) ∧
    (∀ (m hi hi' lo s1 s0 : Byte) (body : Bytes), ∃ (t t' : State) (r : Result),
      exec (.decode (rxChannel s.params.role :: m :: hi :: lo :: s1 :: s0 :: body)) s = .next t ∧
      exec (.decode (rxChannel s.params.role :: m :: hi' :: lo :: s1 :: s0 :: body)) s = .next t' ∧
      Yields s t (.result .decode r) ∧ Yields s t' (.result .decode r))

/-- Bytes after the payload are ignored: an operand that decodes still decodes to the same payload with anything put
after it (R83, decision D10). -/
def Obligations.DecodeIgnoresSurplusBytes : Prop :=
  ∀ (s t : State) (IN more p : Bytes), exec (.decode IN) s = .next t →
    t.transcript = .result .decode { status := .ok, out := p } :: s.transcript →
    ∃ t', exec (.decode (IN ++ more)) s = .next t' ∧ Yields s t' (.result .decode { status := .ok, out := p })

/-- R72: DECODE neither reads nor writes `SEQ`, whatever it returns: two instances that differ in `SEQ` and history give
the same result and each keeps its own. -/
def Obligations.DecodeNeverReadsOrWritesSeq : Prop :=
  ∀ (x y : State) (IN : Bytes), x.params = y.params → ∃ (x' y' : State) (r : Result),
    exec (.decode IN) x = .next x' ∧ exec (.decode IN) y = .next y' ∧
    Yields x x' (.result .decode r) ∧ Yields y y' (.result .decode r) ∧ x'.seq = x.seq ∧ y'.seq = y.seq

/-- R81: the slicer yields exactly the `n` bytes of `F` from offset `off`, in order, unchanged; and a payload DECODE
returns is such a slice at offset 6, which lies inside the operand. -/
def Obligations.SliceCopiesExactlyTheBytesAsked : Prop :=
  (∀ (F : Bytes) (off n : Nat) (inside : off + n ≤ F.length),
    (slice F off n inside).length = n ∧ ∀ i, i < n → (slice F off n inside)[i]? = F[off + i]?) ∧
  (∀ (s t : State) (IN p : Bytes), exec (.decode IN) s = .next t →
    t.transcript = .result .decode { status := .ok, out := p } :: s.transcript →
    6 + p.length ≤ IN.length ∧ ∀ i, i < p.length → p[i]? = IN[6 + i]?)

/-! ### Two ends of a link -/

/-- A payload encoded at one end decodes to itself at an end of opposite `ROLE` with the same `LEN_MODE`, whatever either
`SEQ`; and the end that built the frame rejects it (R86; the two-instance form and the self-decode case are the spec's
own derivation). -/
def Obligations.RoundTripBetweenOppositeEnds : Prop :=
  ∀ (x y : State) (p : Bytes), x.params.role ≠ y.params.role → x.params.lenMode = y.params.lenMode →
    p.length ≤ maxPayload x.params.lenMode →
    ∃ (f : Bytes) (x' y' x'' : State), exec (.encode p) x = .next x' ∧
      Yields x x' (.result .encode { status := .ok, out := f }) ∧
      exec (.decode f) y = .next y' ∧ Yields y y' (.result .decode { status := .ok, out := p }) ∧
      exec (.decode f) x' = .next x'' ∧ Yields x' x'' (.result .decode { status := .unexpectedFrame, out := f })

/-- Ends of different `LEN_MODE`: a LEN16 sender's frame is read short by a LEN8 receiver, with status OK and the low byte
of the length alone; a LEN8 sender's frame is read right by a LEN16 receiver (R113; both cases are the spec's own
derivation). -/
def Obligations.LengthModeMismatchReadsShort : Prop :=
  ∀ (x y : State) (p : Bytes), x.params.role ≠ y.params.role → x.params.lenMode ≠ y.params.lenMode →
    p.length ≤ maxPayload x.params.lenMode →
    ∃ (f : Bytes) (x' y' : State), exec (.encode p) x = .next x' ∧
      Yields x x' (.result .encode { status := .ok, out := f }) ∧ exec (.decode f) y = .next y' ∧
      (x.params.lenMode = .len16 →
        Yields y y' (.result .decode { status := .ok, out := p.take (p.length % 256) })) ∧
      (x.params.lenMode = .len8 → Yields y y' (.result .decode { status := .ok, out := p }))

/-- A frame that arrives from the transport is decoded: the end it is addressed to returns the payload its length field
declares, the other end rejects it with the raw frame (R41, R45, R79). That the FRAME rows act as the arrival of a frame
is the model's choice (log 8). -/
def Obligations.ArrivingFrameIsDecoded : Prop :=
  ∀ (s : State) (n : Word16) (p : Bytes), p.length ≤ 65535 →
    ∃ (t t' : State) (r r' : Result) (l1 l0 s1 s0 : Byte),
      l1.toNat = p.length / 256 ∧ l0.toNat = p.length % 256 ∧ s1.toNat = n.toNat / 256 ∧ s0.toNat = n.toNat % 256 ∧
      exec (.frameA2B n p) s = .next t ∧ Yields s t (.result .decode r) ∧ t.seq = s.seq ∧
      exec (.frameB2A n p) s = .next t' ∧ Yields s t' (.result .decode r') ∧ t'.seq = s.seq ∧
      (s.params.role = .A → r = { status := .unexpectedFrame, out := [0x30#8, 0xA1#8, l1, l0, s1, s0] ++ p }) ∧
      (s.params.role = .B → r' = { status := .unexpectedFrame, out := [0x31#8, 0xA1#8, l1, l0, s1, s0] ++ p }) ∧
      (s.params.lenMode = .len16 →
        (s.params.role = .B → r = { status := .ok, out := p }) ∧
        (s.params.role = .A → r' = { status := .ok, out := p })) ∧
      (s.params.lenMode = .len8 →
        (s.params.role = .B → r = { status := .ok, out := p.take (p.length % 256) }) ∧
        (s.params.role = .A → r' = { status := .ok, out := p.take (p.length % 256) }))

/-- Whatever bytes the transport hands over, performing the operation they are read as is performing DECODE on those
bytes: the FRAME rows add nothing to DECODE and take nothing from it (R3, R38, R79; log 8, log 9). -/
def Obligations.ReceivedBytesAreJudgedByDecode : Prop :=
  ∀ (s : State) (bytes : Bytes) (i : Instr), decode (.received bytes) = .ok i → exec i s = exec (.decode bytes) s

/-! ### Errors, results, completion -/

/-- The numeric codes of the statuses are 0 to 3 (R89, decision D7), and each error is reported under its own name. -/
def Obligations.StatusCodesAreTheFour : Prop :=
  Status.ok.code = 0#2 ∧ Err.unexpectedFrame.status.code = 1#2 ∧ Err.truncatedFrame.status.code = 2#2 ∧
    Err.payloadTooLarge.status.code = 3#2 ∧ ∀ a b : Status, a.code = b.code → a = b

/-- A step keeps every result among the combinations of operation, status and `OUT` that the spec lists: ENCODE returns
OK with a frame of this instance whose length field is exact, or `PayloadTooLarge` with nothing; DECODE returns OK with
at most `MAX_PAYLOAD` bytes, `UnexpectedFrame` with an operand of another channel, or `TruncatedFrame` with nothing
(R59, R78, R88; decisions D7, D9). -/
def Obligations.StepKeepsEveryResultLegal : Prop :=
  ∀ s t : State, s.EventsLegal = true → step s = .next t → t.EventsLegal = true

/-- A failed command leaves the block as it found it, and every operation after it goes exactly as if it had never been
presented (R95, R98). -/
def Obligations.ErrorLeavesTheBlockAsItWas : Prop :=
  ∀ (i : Instr) (s t : State) (op : Op) (r : Result), exec i s = .next t →
    t.transcript = .result op r :: s.transcript → r.status ≠ .ok →
    t.codec = s.codec ∧ t.params = s.params ∧
    ∀ (j : Instr) (u : State), exec j s = .next u → ∃ (u' : State) (e : Event), exec j t = .next u' ∧
      u'.codec = u.codec ∧ Yields s u e ∧ Yields t u' e

/-- With inputs a caller can present the step always exists; it takes one input, a command yields exactly one result, and
the block is ready for the next (R117). The model's own conventions it rests on: inputs wait in a list (log 3), results
are seen in a transcript (log 4), the step with nothing pending changes nothing (log 5), a received buffer counts as a
command (log 8, log 9), and a reset input that is not asserted is taken with no effect (log 15). -/
def Obligations.EveryCommandEndsWithOneResult : Prop :=
  ∀ s : State, s.CallerOnly = true → ∃ t, step s = .next t ∧ t.CallerOnly = true ∧
    ∀ sig rest, s.pending = sig :: rest → t.pending = rest ∧
      (isCommand sig = true → ∃ op r, t.results = (op, r) :: s.results)

/-! ### Encodings and the step -/

/-- A step performs the operation the next signal encodes, in the state in which that signal has been taken; with
nothing pending it changes nothing (R19, R103; log 5), a reset input that is not asserted asks nothing (log 15), and a
signal that encodes no operation is refused by name (log 10). -/
def Obligations.StepPerformsTheNextInput : Prop :=
  (∀ s : State, s.pending = [] → step s = .next s) ∧
  (∀ (s : State) (sig : Signal) (rest : List Signal) (i : Instr), s.pending = sig :: rest → decode sig = .ok i →
    step s = exec i (s.withPending rest)) ∧
  (∀ (s : State) (sig : Signal) (rest : List Signal), s.pending = sig :: rest →
    decode sig = .error .resetNotAsserted → step s = .next (s.withPending rest)) ∧
  (∀ (s : State) (sig : Signal) (rest : List Signal) (e : DecodeError), s.pending = sig :: rest →
    decode sig = .error e → e ≠ .resetNotAsserted → step s = .refused (.undecodable e))

/-- A word of the opcode table, presented, is performed by the very next step (log 12). -/
def Obligations.PresentedTableWordRunsAtOnce : Prop :=
  ∀ (s : State) (nbits w : Nat) (i : Instr), decodeTableWord nbits w = some i →
    step (s.withFetchWord nbits w) = exec i s

/-- Decoding the encoding of a well-formed operation gives it back, with every operand. -/
def Obligations.DecodeOfEncodeGivesTheOperationBack : Prop :=
  ∀ i : Instr, i.wf = true → decode (encode i) = .ok i

/-- Words written out from the spec's encodings decode to the operations they stand for. -/
def Obligations.SpecWordsDecode : Prop :=
  decode (.cmd 0#1 [0xA1#8, 0xB1#8]) = .ok (.encode [0xA1#8, 0xB1#8]) ∧
  decode (.cmd 1#1 [0x31#8]) = .ok (.decode [0x31#8]) ∧
  decode (.rst 1#1) = .ok .reset ∧
  decode (.hdrEncode 0x30A101020000#48) = .ok (.encodeHeader 258) ∧
  decode (.hdrChannel [0x7F#8]) = .ok (.decodeChannel [0x7F#8]) ∧
  decode (.hdrLength [0x00#8, 0x00#8, 0x12#8, 0x34#8]) = .ok (.decodeLength [0x00#8, 0x00#8, 0x12#8, 0x34#8]) ∧
  decode (.fn 0xFFFF#16) = .ok (.seqAdvance 65535#16) ∧
  decode (.received [0x30#8, 0xA1#8, 0x00#8, 0x02#8, 0x12#8, 0x34#8, 0xA1#8, 0xB1#8]) =
    .ok (.frameA2B 0x1234#16 [0xA1#8, 0xB1#8]) ∧
  decode (.received [0x31#8, 0xA1#8, 0x00#8, 0x00#8, 0x00#8, 0x07#8]) = .ok (.frameB2A 7#16 [])

/-- The 48-bit rows of spec/opcode_table.json, for every length and sequence number: the FRAME rows under their match and
mask, ENCODE_HEADER's pattern, DECODE_LENGTH's with other message type bits. Which row a word of two rows is read as is
the model's choice (log 11), and so is the payload of zeros (log 11). -/
def Obligations.TableHeaderWordsDecode : Prop :=
  ∀ l n : Word16,
    decodeTableWord 48 (0x30A100000000 + l.toNat * 65536 + n.toNat) =
      some (.frameA2B n (List.replicate l.toNat 0x00#8)) ∧
    decodeTableWord 48 (0x31A100000000 + l.toNat * 65536 + n.toNat) =
      some (.frameB2A n (List.replicate l.toNat 0x00#8)) ∧
    decodeTableWord 48 (0x00A100000000 + l.toNat * 65536 + n.toNat) = some (.encodeHeader l.toNat) ∧
    decodeTableWord 48 (l.toNat * 65536 + n.toNat) =
      some (.decodeLength [0x00#8, 0x00#8, hiByte l, loByte l, hiByte n, loByte n])

/-! ### The written form, and several instances -/

/-- A command written as a line of a script, alone or given to a named instance, reads back as that command (R60, decision
D18; log 23). -/
def Obligations.WrittenCommandReadsBack : Prop :=
  (∀ (op : Op) (IN : Bytes), readLine (showCommand op IN) = some { name := none, signal := .cmd op.selector IN }) ∧
  (∀ (op : Op) (IN : Bytes) (name : List Char), name.head? ≠ some ' ' →
    (∀ c ∈ name, c ≠ ':' ∧ c ≠ ';' ∧ c ≠ '-') →
    readLine (name ++ ':' :: ' ' :: showCommand op IN) = some { name := some name, signal := .cmd op.selector IN })

/-- Instances share no state: a line given to one of several changes that one, by one step of its own, and leaves every
other as it was (R17, R102; the bench is the model's, log 23). -/
def Obligations.InstancesShareNothing : Prop :=
  ∀ (l : ScriptLine) (b b' : Bench), performLine l b = some b' →
    ∃ (j : Nat) (n : List Char) (s t : State), b[j]? = some (n, s) ∧ b'[j]? = some (n, t) ∧
      (l.name = none ∨ l.name = some n) ∧ step (s.withPending (l.signal :: s.pending)) = .next t ∧
      ∀ i, i ≠ j → b'[i]? = b[i]?
end

