-- ==== Sys2Proof/Laws/Bytes.lean ====
section
/-! SUPPORT. Byte order, header layout, and the buffer primitives: one lemma for all each can do. -/

namespace Sys2Proof.Machine

theorem hiByte_toNat (v : Word16) : (hiByte v).toNat = v.toNat / 256 := by
  have := v.isLt
  simp only [hiByte, BitVec.toNat_setWidth, BitVec.toNat_ushiftRight, Nat.shiftRight_eq_div_pow]
  omega

theorem loByte_toNat (v : Word16) : (loByte v).toNat = v.toNat % 256 := by
  have h : v.toNat % 256 &&& 255 = v.toNat % 256 % 2 ^ 8 := Nat.and_two_pow_sub_one_eq_mod (v.toNat % 256) 8
  simp [loByte, h]

theorem zext16_toNat (b : Byte) : (zext16 b).toNat = b.toNat := by
  have := b.isLt
  simp only [zext16, BitVec.toNat_setWidth]
  omega

theorem be16_toNat (hi lo : Byte) : (be16 hi lo).toNat = hi.toNat * 256 + lo.toNat := by
  have hh := hi.isLt
  have hl := lo.isLt
  have e : (zext16 hi <<< 8).toNat = hi.toNat <<< 8 := by
    simp only [BitVec.toNat_shiftLeft, zext16_toNat, Nat.shiftLeft_eq]
    omega
  rw [be16, BitVec.toNat_or, e, zext16_toNat, ← Nat.shiftLeft_add_eq_or_of_lt (by simpa using hl),
    Nat.shiftLeft_eq]

theorem lenHi_toNat {L : Nat} (h : L ≤ 65535) : (lenHi L).toNat = L / 256 := by
  simp only [lenHi, BitVec.toNat_ofNat, Nat.shiftRight_eq_div_pow]
  omega

theorem lenLo_toNat (L : Nat) : (lenLo L).toNat = L % 256 := by
  have h : L &&& 255 = L % 2 ^ 8 := Nat.and_two_pow_sub_one_eq_mod L 8
  simp [lenLo, h]

/-- Reading a 16-bit field that was written gives it back (R50). -/
theorem be16_hi_lo (v : Word16) : be16 (hiByte v) (loByte v) = v := by
  apply BitVec.eq_of_toNat_eq
  rw [be16_toNat, hiByte_toNat, loByte_toNat]
  omega

theorem be16_len {L : Nat} (h : L ≤ 65535) : (be16 (lenHi L) (lenLo L)).toNat = L := by
  rw [be16_toNat, lenHi_toNat h, lenLo_toNat]
  omega

theorem headerBytes_length (c : Byte) (L : Nat) (s : Word16) : (headerBytes c L s).length = 6 := rfl

theorem frameBytes_length (c : Byte) (s : Word16) (payload : Bytes) :
    (frameBytes c s payload).length = 6 + payload.length := by
  simp [frameBytes, headerBytes]
  omega

theorem maxPayload_le (m : LenMode) : maxPayload m ≤ 65535 := by
  cases m <;> decide

/-- All that reading can do: the bytes asked for, no more and no fewer (R28). -/
theorem memRead_spec (IN : Bytes) (off n : Nat) (h : off + n ≤ IN.length) :
    (memRead IN off n h).length = n ∧ ∀ i, i < n → (memRead IN off n h)[i]? = IN[off + i]? := by
  refine ⟨by simp [memRead]; omega, fun i hi => ?_⟩
  simp [memRead, hi]

/-- Writing the first bytes of an empty result. -/
@[simp] theorem memWrite_nil (v : Bytes) : memWrite [] 0 v = v := by simp [memWrite]

/-- Writing at the end of what is written, with no gap and no byte twice (R29). -/
theorem memWrite_end (OUT v : Bytes) {off : Nat} (h : off = OUT.length) : memWrite OUT off v = OUT ++ v := by
  subst h
  simp [memWrite]

end Sys2Proof.Machine
end

