-- ==== Sys2Proof/Laws/State.lean ====
section
/-! SUPPORT. One lemma per field per update of the state. -/

namespace Sys2Proof.Machine

variable (s : State) (v : Word16) (e : Event) (l : List Signal)

/-! The accessors are spelled by the field they read, so that the lemmas after them fire. -/

@[simp] theorem seq_eq : s.seq = s.codec.seq := rfl
@[simp] theorem pending_eq : s.pending = s.port.pending := rfl
@[simp] theorem transcript_eq : s.transcript = s.port.transcript := rfl

@[simp] theorem setSeq_seq : (s.setSeq v).codec.seq = v := rfl
@[simp] theorem setSeq_params : (s.setSeq v).params = s.params := rfl
@[simp] theorem setSeq_port : (s.setSeq v).port = s.port := rfl
@[simp] theorem post_codec : (s.post e).codec = s.codec := rfl
@[simp] theorem post_params : (s.post e).params = s.params := rfl
@[simp] theorem post_pending : (s.post e).port.pending = s.port.pending := rfl
@[simp] theorem post_transcript : (s.post e).port.transcript = e :: s.port.transcript := rfl
@[simp] theorem withPending_codec : (s.withPending l).codec = s.codec := rfl
@[simp] theorem withPending_params : (s.withPending l).params = s.params := rfl
@[simp] theorem withPending_pending : (s.withPending l).port.pending = l := rfl
@[simp] theorem withPending_transcript : (s.withPending l).port.transcript = s.port.transcript := rfl
@[simp] theorem setSeq_same : s.setSeq s.codec.seq = s := rfl
@[simp] theorem withPending_withPending (l' : List Signal) :
    (s.withPending l).withPending l' = s.withPending l' := rfl
@[simp] theorem withPending_same : s.withPending s.port.pending = s := rfl

@[simp] theorem results_setSeq : (s.setSeq v).results = s.results := rfl
@[simp] theorem results_withPending : (s.withPending l).results = s.results := rfl

theorem results_post : (s.post e).results = (match e.result? with
    | some r => r :: s.results
    | none => s.results) := by
  cases h : e.result? <;> simp [State.results, h]

@[simp] theorem results_post_result (op : Op) (r : Result) :
    (s.post (.result op r)).results = (op, r) :: s.results := by simp [results_post, Event.result?]

@[simp] theorem results_post_reset : (s.post .resetTaken).results = s.results := by
  simp [results_post, Event.result?]

end Sys2Proof.Machine
end

