-- ==== Sys2Proof/Laws/Codec.lean ====
section
/-! SUPPORT. What each shared operation of the codec can answer, said once: the provers cite these and unfold nothing. -/

namespace Sys2Proof.Machine

/-- SEQ_ADVANCE is increment modulo 65536 (R68). -/
theorem seqAdvance_eq (v : Word16) : seqAdvance v = v + 1#16 := by
  have hv := v.isLt
  unfold seqAdvance
  split <;> rename_i h <;> simp only [Config.MAX_SEQ_NUMBER] at h
  · have : v.toNat = 65535 := by omega
    apply BitVec.eq_of_toNat_eq
    simp [BitVec.toNat_add, this]
  · apply BitVec.eq_of_toNat_eq
    simp [BitVec.toNat_add]

theorem encodeHeader_eq (p : Params) (seq : Word16) (L : Nat) (h : L ≤ maxPayload p.lenMode) :
    encodeHeader p seq L h = (headerBytes (txChannel p.role) L seq, seq + 1#16) := by
  rw [encodeHeader, seqAdvance_eq]

/-- ENCODE within the size limit: the frame, and `SEQ` moved on (R76, R78). -/
theorem encodeFrame_ok (p : Params) (seq : Word16) {IN : Bytes} (h : IN.length ≤ maxPayload p.lenMode) :
    encodeFrame p seq IN = (returnOk (frameBytes (txChannel p.role) seq IN), seq + 1#16) := by
  rw [encodeFrame, dif_pos h]
  simp only [encodeHeader_eq, memWrite_nil]
  rw [memWrite_end _ _ (headerBytes_length _ _ _).symm, frameBytes]

/-- ENCODE beyond it: the error, and `SEQ` as it was (R70, R92). -/
theorem encodeFrame_tooLarge (p : Params) (seq : Word16) {IN : Bytes} (h : maxPayload p.lenMode < IN.length) :
    encodeFrame p seq IN = (raise .payloadTooLarge [], seq) := by
  rw [encodeFrame, dif_neg (by omega)]

/-- All that ENCODE can do: one of the two. -/
theorem encodeFrame_cases (p : Params) (seq : Word16) (IN : Bytes) :
    (IN.length ≤ maxPayload p.lenMode ∧
      encodeFrame p seq IN = (returnOk (frameBytes (txChannel p.role) seq IN), seq + 1#16)) ∨
    (maxPayload p.lenMode < IN.length ∧ encodeFrame p seq IN = (raise .payloadTooLarge [], seq)) := by
  by_cases h : IN.length ≤ maxPayload p.lenMode
  · exact .inl ⟨h, encodeFrame_ok p seq h⟩
  · exact .inr ⟨by omega, encodeFrame_tooLarge p seq (by omega)⟩

/-- All that the slicer can do (R81). -/
theorem slice_eq (F : Bytes) (off n : Nat) (h : off + n ≤ F.length) : slice F off n h = (F.drop off).take n := by
  simp [slice, memRead]

/-- The length a header declares (R51). -/
def declared (m : LenMode) (hi lo : Byte) : Nat :=
  match m with
  | .len16 => hi.toNat * 256 + lo.toNat
  | .len8 => lo.toNat

theorem decodeLength_toNat (m : LenMode) (b0 b1 hi lo : Byte) (rest : Bytes)
    (h : 4 ≤ (b0 :: b1 :: hi :: lo :: rest).length) :
    (decodeLength m (b0 :: b1 :: hi :: lo :: rest) h).toNat = declared m hi lo := by
  cases m
  · exact be16_toNat hi lo
  · exact zext16_toNat lo

theorem declared_le (m : LenMode) (hi lo : Byte) : declared m hi lo ≤ maxPayload m := by
  have := hi.isLt
  have := lo.isLt
  cases m <;> simp only [declared, maxPayload] <;> omega

theorem decodeFrame_nil (p : Params) : decodeFrame p [] = raise .truncatedFrame [] := rfl

theorem decodeFrame_wrongChannel (p : Params) {c : Byte} (rest : Bytes) (h : c ≠ rxChannel p.role) :
    decodeFrame p (c :: rest) = raise .unexpectedFrame (c :: rest) := by
  rw [decodeFrame, dif_pos (by simp), if_neg (by simpa [decodeChannel, byteAt] using h)]

theorem decodeFrame_shortHeader (p : Params) {rest : Bytes} (h : rest.length < 5) :
    decodeFrame p (rxChannel p.role :: rest) = raise .truncatedFrame [] := by
  rw [decodeFrame, dif_pos (by simp), if_pos (by simp [decodeChannel, byteAt]),
    dif_neg (by simp only [List.length_cons, Config.HDR_LEN]; omega)]

/-- DECODE of an operand with the right channel and a whole header: the payload, or the last test fails (R79). -/
theorem decodeFrame_whole (p : Params) (m hi lo s1 s0 : Byte) (body : Bytes) :
    decodeFrame p (rxChannel p.role :: m :: hi :: lo :: s1 :: s0 :: body) =
      if declared p.lenMode hi lo ≤ body.length then returnOk (body.take (declared p.lenMode hi lo))
      else raise .truncatedFrame [] := by
  rw [decodeFrame, dif_pos (by simp), if_pos (by simp [decodeChannel, byteAt]), dif_pos (by simp [Config.HDR_LEN])]
  simp only [decodeLength_toNat, slice_eq, List.length_cons, Config.HDR_LEN]
  by_cases h : declared p.lenMode hi lo ≤ body.length
  · rw [dif_pos (by omega), if_pos h]
    rfl
  · rw [dif_neg (by omega), if_neg h]

/-- Every operand is one of the four kinds that DECODE tells apart (R80's table). -/
theorem decode_operand_cases (p : Params) (IN : Bytes) :
    IN = [] ∨ (∃ c rest, c ≠ rxChannel p.role ∧ IN = c :: rest) ∨
    (∃ rest, rest.length < 5 ∧ IN = rxChannel p.role :: rest) ∨
    (∃ m hi lo s1 s0 body, IN = rxChannel p.role :: m :: hi :: lo :: s1 :: s0 :: body) := by
  match IN with
  | [] => exact .inl rfl
  | c :: rest =>
    by_cases hc : c = rxChannel p.role
    · subst hc
      match rest with
      | [] | [_] | [_, _] | [_, _, _] | [_, _, _, _] => exact .inr (.inr (.inl ⟨_, by simp, rfl⟩))
      | m :: hi :: lo :: s1 :: s0 :: body => exact .inr (.inr (.inr ⟨m, hi, lo, s1, s0, body, rfl⟩))
    · exact .inr (.inl ⟨c, rest, hc, rfl⟩)

/-- An operand that decodes has the right channel, a whole header, and the payload that header declares (R79). -/
theorem decodeFrame_eq_ok {p : Params} {IN out : Bytes} (h : decodeFrame p IN = { status := .ok, out := out }) :
    ∃ m hi lo s1 s0 body, IN = rxChannel p.role :: m :: hi :: lo :: s1 :: s0 :: body ∧
      declared p.lenMode hi lo ≤ body.length ∧ out = body.take (declared p.lenMode hi lo) := by
  obtain rfl | ⟨c, rest, hc, rfl⟩ | ⟨rest, hr, rfl⟩ | ⟨m, hi, lo, s1, s0, body, rfl⟩ := decode_operand_cases p IN
  · cases h
  · rw [decodeFrame_wrongChannel _ _ hc] at h
    cases h
  · rw [decodeFrame_shortHeader _ hr] at h
    cases h
  · rw [decodeFrame_whole] at h
    split at h
    · cases h
      exact ⟨m, hi, lo, s1, s0, body, rfl, ‹_›, rfl⟩
    · cases h

/-- The two channels of an instance differ (R6). -/
theorem txChannel_ne_rxChannel (r : Role) : txChannel r ≠ rxChannel r := by
  cases r <;> decide

end Sys2Proof.Machine
end

