-- ==== Sys2Proof/Laws/Decode.lean ====
section
/-! SUPPORT. The fields of a 48-bit header, and what a received buffer is read as. -/

namespace Sys2Proof

open Machine

theorem headerChannel_header48 (c m : Byte) (l n : Word16) : headerChannel (header48 c m l n) = c := by
  apply BitVec.eq_of_getLsbD_eq
  intro i hi
  simp only [headerChannel, header48, BitVec.getLsbD_extractLsb', BitVec.getLsbD_append, hi, decide_true, Bool.true_and]
  have h1 : ¬ 40 + i < 16 := by omega
  have h2 : ¬ 40 + i - 16 < 16 := by omega
  have h3 : ¬ 40 + i - 16 - 16 < 8 := by omega
  simp only [h1, h2, h3, if_false]
  congr 1
  omega

theorem headerType_header48 (c m : Byte) (l n : Word16) : headerType (header48 c m l n) = m := by
  apply BitVec.eq_of_getLsbD_eq
  intro i hi
  simp only [headerType, header48, BitVec.getLsbD_extractLsb', BitVec.getLsbD_append, hi, decide_true, Bool.true_and]
  have h1 : ¬ 32 + i < 16 := by omega
  have h2 : ¬ 32 + i - 16 < 16 := by omega
  have h3 : 32 + i - 16 - 16 < 8 := by omega
  simp only [h1, h2, h3, if_false, if_true]
  congr 1
  omega

theorem headerLength_header48 (c m : Byte) (l n : Word16) : headerLength (header48 c m l n) = l := by
  apply BitVec.eq_of_getLsbD_eq
  intro i hi
  simp only [headerLength, header48, BitVec.getLsbD_extractLsb', BitVec.getLsbD_append, hi, decide_true, Bool.true_and]
  have h1 : ¬ 16 + i < 16 := by omega
  have h2 : 16 + i - 16 < 16 := by omega
  simp only [h1, h2, if_false, if_true]
  congr 1
  omega

theorem headerSeq_header48 (c m : Byte) (l n : Word16) : headerSeq (header48 c m l n) = n := by
  apply BitVec.eq_of_getLsbD_eq
  intro i hi
  simp only [headerSeq, header48, BitVec.getLsbD_extractLsb', BitVec.getLsbD_append, hi, decide_true, Bool.true_and,
    Nat.zero_add, if_true]

/-- A 48-bit header as a number (R44). -/
theorem header48_toNat (c m : Byte) (l n : Word16) :
    (header48 c m l n).toNat = ((c.toNat * 256 + m.toNat) * 65536 + l.toNat) * 65536 + n.toNat := by
  have hm := m.isLt
  have hl := l.isLt
  have hn := n.isLt
  simp only [header48, BitVec.toNat_append]
  rw [← Nat.shiftLeft_add_eq_or_of_lt hn, ← Nat.shiftLeft_add_eq_or_of_lt hl, ← Nat.shiftLeft_add_eq_or_of_lt hm]
  simp only [Nat.shiftLeft_eq]

/-- A header read as a number, the other way round. -/
theorem ofNat_eq_header48 (c m : Byte) (l n : Word16) {w : Nat}
    (h : w = ((c.toNat * 256 + m.toNat) * 65536 + l.toNat) * 65536 + n.toNat) :
    BitVec.ofNat 48 w = header48 c m l n := by
  apply BitVec.eq_of_toNat_eq
  have := (header48 c m l n).isLt
  rw [header48_toNat] at this
  rw [header48_toNat, BitVec.toNat_ofNat, h]
  omega

/-- The length bytes of a payload whose length a header states exactly are that header's. -/
theorem lenBytes_of_be16 {L : Nat} {hi lo : Byte} (h : L = (be16 hi lo).toNat) : lenHi L = hi ∧ lenLo L = lo := by
  have hh := hi.isLt
  have hl := lo.isLt
  rw [be16_toNat] at h
  refine ⟨BitVec.eq_of_toNat_eq ?_, BitVec.eq_of_toNat_eq ?_⟩
  · rw [lenHi_toNat (by omega)]
    omega
  · rw [lenLo_toNat]
    omega

theorem hiByte_be16 (hi lo : Byte) : hiByte (be16 hi lo) = hi := by
  have hh := hi.isLt
  have hl := lo.isLt
  apply BitVec.eq_of_toNat_eq
  rw [hiByte_toNat, be16_toNat]
  omega

theorem loByte_be16 (hi lo : Byte) : loByte (be16 hi lo) = lo := by
  have hl := lo.isLt
  apply BitVec.eq_of_toNat_eq
  rw [loByte_toNat, be16_toNat]
  omega

/-- Everything a received buffer can be read as: a frame of one of the FRAME rows, whose bytes it then is, or the
operand of a DECODE. -/
theorem decodeReceived_spec (bytes : Bytes) :
    decodeReceived bytes = .decode bytes ∨
    ∃ n payload, payload.length ≤ 65535 ∧
      ((decodeReceived bytes = .frameA2B n payload ∧ bytes = frameBytes Config.CH_A2B n payload) ∨
        (decodeReceived bytes = .frameB2A n payload ∧ bytes = frameBytes Config.CH_B2A n payload)) := by
  match bytes with
  | [] | [_] | [_, _] | [_, _, _] | [_, _, _, _] | [_, _, _, _, _] => exact .inl rfl
  | c :: m :: l1 :: l0 :: s1 :: s0 :: payload =>
    by_cases h : m = Config.MSG_DATA ∧ payload.length = (be16 l1 l0).toNat
    · obtain ⟨hm, hp⟩ := h
      obtain ⟨h1, h0⟩ := lenBytes_of_be16 hp
      have hl : payload.length ≤ 65535 := by
        have := (be16 l1 l0).isLt
        omega
      have hf (ch : Byte) : ch :: m :: l1 :: l0 :: s1 :: s0 :: payload = frameBytes ch (be16 s1 s0) payload := by
        simp only [frameBytes, headerBytes, hm, h1, h0, hiByte_be16, loByte_be16]
        rfl
      by_cases ha : c = Config.CH_A2B
      · exact .inr ⟨_, payload, hl, .inl ⟨by rw [decodeReceived, if_pos ⟨hm, hp⟩, if_pos ha], by rw [ha, hf]⟩⟩
      · by_cases hb : c = Config.CH_B2A
        · exact .inr ⟨_, payload, hl,
            .inr ⟨by rw [decodeReceived, if_pos ⟨hm, hp⟩, if_neg ha, if_pos hb], by rw [hb, hf]⟩⟩
        · exact .inl (by rw [decodeReceived, if_pos ⟨hm, hp⟩, if_neg ha, if_neg hb])
    · exact .inl (by rw [decodeReceived, if_neg h])

/-- The bytes of a frame of either row are read as that frame. -/
theorem decodeReceived_frameBytes {c : Byte} {payload : Bytes} (n : Word16) (h : payload.length ≤ 65535) :
    (c = Config.CH_A2B → decodeReceived (frameBytes c n payload) = .frameA2B n payload) ∧
    (c = Config.CH_B2A → decodeReceived (frameBytes c n payload) = .frameB2A n payload) := by
  have hp : payload.length = (be16 (lenHi payload.length) (lenLo payload.length)).toNat := (be16_len h).symm
  constructor <;> intro hc <;>
    simp only [frameBytes, headerBytes, List.cons_append, List.nil_append, decodeReceived] <;>
    rw [if_pos ⟨trivial, hp⟩, be16_hi_lo]
  · rw [if_pos hc]
  · rw [if_neg (by rw [hc]; decide), if_pos hc]

end Sys2Proof
end

