-- ==== Sys2Proof/Laws/PerInstr.lean ====
section
/-! SUPPORT. The family DecodeWf: whatever signal the decoder reads an operation from, that operation is well formed.
One lemma per constructor of `Instr`. -/

namespace Sys2Proof.Laws

open Machine

/-- Every operation the decoder yields is well formed. -/
def DecodeWf.Statement (i : Instr) : Prop := ∀ sig, Sys2Proof.decode sig = .ok i → i.wf = true

theorem DecodeWf.encode (IN : Bytes) : DecodeWf.Statement (.encode IN) := fun _ _ => rfl

theorem DecodeWf.decode (IN : Bytes) : DecodeWf.Statement (.decode IN) := fun _ _ => rfl

theorem DecodeWf.reset : DecodeWf.Statement .reset := fun _ _ => rfl

theorem DecodeWf.seqAdvance (v : Word16) : DecodeWf.Statement (.seqAdvance v) := fun _ _ => rfl

/-- The decoder yields well-formed operations only. -/
theorem decode_ok_wf {sig : Signal} {i : Instr} (h : Sys2Proof.decode sig = .ok i) : i.wf = true := by
  cases sig with
  | cmd op IN =>
    cases h
    split <;> rfl
  | rst line =>
    simp only [Sys2Proof.decode] at h
    split at h <;> cases h
    rfl
  | received bytes =>
    cases h
    obtain e | ⟨n, p, hp, ⟨e, -⟩ | ⟨e, -⟩⟩ := decodeReceived_spec bytes
    · rw [e]; rfl
    · rw [e]; exact decide_eq_true hp
    · rw [e]; exact decide_eq_true hp
  | hdrEncode w =>
    simp only [Sys2Proof.decode, decodeHeaderPattern] at h
    split at h <;> cases h
    have := (headerLength w).isLt
    exact decide_eq_true (by omega)
  | hdrChannel F =>
    simp only [Sys2Proof.decode] at h
    split at h <;> cases h
    exact decide_eq_true ‹_›
  | hdrLength F =>
    simp only [Sys2Proof.decode] at h
    split at h <;> cases h
    exact decide_eq_true ‹_›
  | fn v =>
    cases h
    rfl

theorem DecodeWf.encodeHeader (L : Nat) : DecodeWf.Statement (.encodeHeader L) := fun _ => decode_ok_wf

theorem DecodeWf.decodeChannel (F : Bytes) : DecodeWf.Statement (.decodeChannel F) := fun _ => decode_ok_wf

theorem DecodeWf.decodeLength (F : Bytes) : DecodeWf.Statement (.decodeLength F) := fun _ => decode_ok_wf

theorem DecodeWf.frameA2B (n : Word16) (payload : Bytes) : DecodeWf.Statement (.frameA2B n payload) :=
  fun _ => decode_ok_wf

theorem DecodeWf.frameB2A (n : Word16) (payload : Bytes) : DecodeWf.Statement (.frameB2A n payload) :=
  fun _ => decode_ok_wf

end Sys2Proof.Laws
end

