-- ==== Sys2Proof/Laws/Safety.lean ====
section
/-! SUPPORT. Small facts about the terms claims use. -/

namespace Sys2Proof.Machine

/-- A header carries the sequence number it was built with (R47). -/
theorem carriedSeq_headerBytes (c : Byte) (L : Nat) (v : Word16) (payload : Bytes) :
    carriedSeq (headerBytes c L v ++ payload) = some v := by
  simp [headerBytes, carriedSeq, be16_hi_lo]

theorem carriedSeq_header (c : Byte) (L : Nat) (v : Word16) : carriedSeq (headerBytes c L v) = some v := by
  simpa using carriedSeq_headerBytes c L v []

theorem carriedSeq_frame (c : Byte) (v : Word16) (payload : Bytes) : carriedSeq (frameBytes c v payload) = some v :=
  carriedSeq_headerBytes c _ v payload

/-- The kinds of signal a caller can present. -/
theorem callerMayPresent_cases {sig : Signal} (h : callerMayPresent sig = true) :
    (∃ op IN, sig = .cmd op IN) ∨ (∃ line, sig = .rst line) ∨ ∃ bytes, sig = .received bytes := by
  cases sig <;> simp_all [callerMayPresent]

/-- A transcript's end is numbered where the whole is. -/
theorem numbered_append {b : Word16} {earlier : List Event} (later : List Event)
    (h : numbered b (later ++ earlier) = true) : numbered b earlier = true := by
  induction later with
  | nil => exact h
  | cons e l ih =>
    simp only [List.cons_append, numbered, Bool.and_eq_true] at h
    exact ih h.1

end Sys2Proof.Machine
end

