-- ==== Sys2Proof/Laws/Script.lean ====
section
/-! SUPPORT. Hexadecimal text: what is shown reads back, and what characters it is made of. -/

namespace Sys2Proof.Machine

theorem hexValue_hexDigit : ∀ n, n < 16 → hexValue (hexDigit n) = some n := by decide

theorem hexDigit_plain : ∀ n, n < 16 →
    hexDigit n ≠ ' ' ∧ hexDigit n ≠ ':' ∧ hexDigit n ≠ ';' ∧ hexDigit n ≠ '-' ∧ hexDigit n ≠ '*' := by decide

/-- No character of hexadecimal text is one the script gives a meaning (R60). -/
theorem showHex_plain {B : Bytes} {c : Char} (hc : c ∈ showHex B) :
    c ≠ ' ' ∧ c ≠ ':' ∧ c ≠ ';' ∧ c ≠ '-' ∧ c ≠ '*' := by
  simp only [showHex, List.mem_flatMap] at hc
  obtain ⟨b, -, hc⟩ := hc
  have hb := b.isLt
  simp only [List.mem_cons, List.not_mem_nil, or_false] at hc
  rcases hc with rfl | rfl <;> exact hexDigit_plain _ (by omega)

/-- Bytes shown in hexadecimal read back. -/
theorem readHex_showHex (B : Bytes) : readHex (showHex B) = some B := by
  induction B with
  | nil => rfl
  | cons b B ih =>
    have hb := b.isLt
    show readHex (hexDigit (b.toNat / 16) :: hexDigit (b.toNat % 16) :: showHex B) = _
    rw [readHex]
    · rw [hexValue_hexDigit _ (by omega), hexValue_hexDigit _ (by omega), ih]
      have e : b.toNat / 16 * 16 + b.toNat % 16 = b.toNat := by omega
      simp [e]
    · exact (hexDigit_plain _ (by omega)).1

end Sys2Proof.Machine
end

