-- ==== Sys2Proof/Laws/Step.lean ====
section
/-! SUPPORT. What `exec` and `step` can do, said once. -/

namespace Sys2Proof.Machine

theorem exec_encode (IN : Bytes) (s : State) : exec (.encode IN) s =
    .next ((s.setSeq (encodeFrame s.params s.seq IN).2).post (.result .encode (encodeFrame s.params s.seq IN).1)) := rfl

theorem exec_decode (IN : Bytes) (s : State) :
    exec (.decode IN) s = .next (s.post (.result .decode (decodeFrame s.params IN))) := rfl

theorem exec_reset (s : State) : exec .reset s = .next ((s.setSeq 0#16).post .resetTaken) := rfl

theorem exec_encodeHeader {L : Nat} {s : State} (h : L ≤ maxPayload s.params.lenMode) :
    exec (.encodeHeader L) s =
      .next ((s.setSeq (s.seq + 1#16)).post (.header (headerBytes (txChannel s.params.role) L s.seq))) := by
  rw [exec, execEncodeHeader, dif_pos h, encodeHeader_eq]

theorem exec_decodeChannel {F : Bytes} (h : 1 ≤ F.length) (s : State) :
    exec (.decodeChannel F) s = .next (s.post (.channel (decodeChannel F h))) := by
  rw [exec, execDecodeChannel, dif_pos h]

theorem exec_decodeLength {F : Bytes} (h : 4 ≤ F.length) (s : State) :
    exec (.decodeLength F) s = .next (s.post (.length (decodeLength s.params.lenMode F h))) := by
  rw [exec, execDecodeLength, dif_pos h]

theorem exec_seqAdvance (v : Word16) (s : State) : exec (.seqAdvance v) s = .next (s.post (.advanced (v + 1#16))) := by
  rw [exec, execSeqAdvance, seqAdvance_eq]

theorem exec_frameA2B {payload : Bytes} (h : payload.length ≤ 65535) (seqNo : Word16) (s : State) :
    exec (.frameA2B seqNo payload) s =
      .next (s.post (.result .decode (decodeFrame s.params (frameBytes Config.CH_A2B seqNo payload)))) := by
  rw [exec, execFrameA2B, receiveFrame, if_pos h]

theorem exec_frameB2A {payload : Bytes} (h : payload.length ≤ 65535) (seqNo : Word16) (s : State) :
    exec (.frameB2A seqNo payload) s =
      .next (s.post (.result .decode (decodeFrame s.params (frameBytes Config.CH_B2A seqNo payload)))) := by
  rw [exec, execFrameB2A, receiveFrame, if_pos h]

/-- Everything an operation can do when it goes on: write `SEQ` and hand out one event that is not a command's result,
or end a command. Parameters and pending inputs are never touched. -/
theorem exec_next_cases {i : Instr} {s t : State} (h : exec i s = .next t) :
    (∃ IN, i = .encode IN ∧
      t = (s.setSeq (encodeFrame s.params s.seq IN).2).post (.result .encode (encodeFrame s.params s.seq IN).1)) ∨
    (∃ IN, (i = .decode IN ∨ (∃ n p, i = .frameA2B n p ∧ IN = frameBytes Config.CH_A2B n p) ∨
        (∃ n p, i = .frameB2A n p ∧ IN = frameBytes Config.CH_B2A n p)) ∧
      t = s.post (.result .decode (decodeFrame s.params IN))) ∨
    (i = .reset ∧ t = (s.setSeq 0#16).post .resetTaken) ∨
    (∃ L, i = .encodeHeader L ∧ L ≤ maxPayload s.params.lenMode ∧
      t = (s.setSeq (s.seq + 1#16)).post (.header (headerBytes (txChannel s.params.role) L s.seq))) ∨
    (∃ F nonempty, i = .decodeChannel F ∧ t = s.post (.channel (decodeChannel F nonempty))) ∨
    (∃ F long, i = .decodeLength F ∧ t = s.post (.length (decodeLength s.params.lenMode F long))) ∨
    (∃ v, i = .seqAdvance v ∧ t = s.post (.advanced (v + 1#16))) := by
  cases i with
  | encode IN =>
    cases h
    exact .inl ⟨IN, rfl, rfl⟩
  | decode IN =>
    cases h
    exact .inr (.inl ⟨IN, .inl rfl, rfl⟩)
  | reset =>
    cases h
    exact .inr (.inr (.inl ⟨rfl, rfl⟩))
  | encodeHeader L =>
    by_cases fits : L ≤ maxPayload s.params.lenMode
    · rw [exec_encodeHeader fits] at h
      cases h
      exact .inr (.inr (.inr (.inl ⟨L, rfl, fits, rfl⟩)))
    · simp [exec, execEncodeHeader, fits] at h
  | decodeChannel F =>
    by_cases nonempty : 1 ≤ F.length
    · rw [exec_decodeChannel nonempty] at h
      cases h
      exact .inr (.inr (.inr (.inr (.inl ⟨F, nonempty, rfl, rfl⟩))))
    · rw [exec, execDecodeChannel, dif_neg nonempty] at h
      cases h
  | decodeLength F =>
    by_cases long : 4 ≤ F.length
    · rw [exec_decodeLength long] at h
      cases h
      exact .inr (.inr (.inr (.inr (.inr (.inl ⟨F, long, rfl, rfl⟩)))))
    · rw [exec, execDecodeLength, dif_neg long] at h
      cases h
  | seqAdvance v =>
    rw [exec_seqAdvance] at h
    cases h
    exact .inr (.inr (.inr (.inr (.inr (.inr ⟨v, rfl, rfl⟩)))))
  | frameA2B n p =>
    by_cases fits : p.length ≤ 65535
    · rw [exec_frameA2B fits] at h
      cases h
      exact .inr (.inl ⟨_, .inr (.inl ⟨n, p, rfl, rfl⟩), rfl⟩)
    · rw [exec, execFrameA2B, receiveFrame, if_neg fits] at h
      cases h
  | frameB2A n p =>
    by_cases fits : p.length ≤ 65535
    · rw [exec_frameB2A fits] at h
      cases h
      exact .inr (.inl ⟨_, .inr (.inr ⟨n, p, rfl, rfl⟩), rfl⟩)
    · rw [exec, execFrameB2A, receiveFrame, if_neg fits] at h
      cases h

/-- All that a step can do when it goes on: hold, drop a reset input that is not asserted, or perform the operation
the next signal encodes. -/
theorem step_next_cases {s t : State} (h : step s = .next t) :
    (s.pending = [] ∧ t = s) ∨
    (∃ sig rest, s.pending = sig :: rest ∧
      ((decode sig = .error .resetNotAsserted ∧ t = s.withPending rest) ∨
        ∃ i, decode sig = .ok i ∧ exec i (s.withPending rest) = .next t)) := by
  unfold step fetch at h
  cases hp : s.pending with
  | nil =>
    simp only [hp] at h
    cases h
    exact .inl ⟨rfl, rfl⟩
  | cons sig rest =>
    simp only [hp] at h
    refine .inr ⟨sig, rest, rfl, ?_⟩
    cases hd : decode sig with
    | ok i =>
      simp only [hd] at h
      exact .inr ⟨i, rfl, h⟩
    | error e =>
      cases e with
      | resetNotAsserted =>
        simp only [hd] at h
        cases h
        exact .inl ⟨rfl, rfl⟩
      | headerTypeBits => simp only [hd] at h; cases h
      | channelOfEmptyFrame => simp only [hd] at h; cases h
      | lengthOfShortFrame => simp only [hd] at h; cases h

theorem run_succ (M : Host.Core) {s t : M.State} (k : Nat) (h : M.step s = .next t) : M.run (k + 1) s = M.run k t := by
  rw [Host.Core.run, h]

/-- A run goes on from the state its first step gives. -/
theorem run_succ_of_step {s t : State} (k : Nat) (h : step s = .next t) :
    Host.Core.run core (k + 1) s = Host.Core.run core k t :=
  run_succ core k h

end Sys2Proof.Machine
end

