-- ==== Sys2Proof/Tests/Slice0.lean ====
section
/-! SUPPORT. Tests of one operation each, their expected values from spec/95_test_vectors.md (the vector is named) or
written out from the encodings of spec/; the smoke test of WellFormed; and, for each statement with hypotheses, a witness
that meets them, at the ends of the ranges it speaks of. -/

namespace Sys2Proof.Tests

open Machine

/-- An instance with nothing pending and nothing handed out. -/
def inst (role : Role) (mode : LenMode) (seq : Word16) : State :=
  { codec := { seq := seq }, params := { role := role, lenMode := mode }, port := { pending := [], transcript := [] } }

/-- What an operation leaves in `SEQ` and the newest thing it handed out. -/
def seen (o : Host.Outcome State Fault Refusal) : Option (Word16 × Option Event) :=
  match o with
  | .next t => some (t.seq, t.transcript.head?)
  | .fault _ => none
  | .refused _ => none

/-- A payload of `n` zero bytes. -/
def zeros (n : Nat) : Bytes := List.replicate n 0x00#8

@[simp] theorem zeros_length (n : Nat) : (zeros n).length = n := List.length_replicate

/-- The reason of a refusal. -/
def refusal (o : Host.Outcome State Fault Refusal) : Option Refusal :=
  match o with
  | .next _ => none
  | .fault _ => none
  | .refused r => some r

/-! ### Well-formedness refuses an ill-formed term of each kind -/

theorem test_wf_encodeHeader : (Instr.encodeHeader 65536).wf = false := by decide
theorem test_wf_decodeChannel : (Instr.decodeChannel []).wf = false := by decide
theorem test_wf_decodeLength : (Instr.decodeLength [0x31#8, 0xA1#8, 0x00#8]).wf = false := by decide
theorem test_wf_frameA2B : (Instr.frameA2B 0#16 (zeros 65536)).wf = false := by simp [Instr.wf]
theorem test_wf_frameB2A : (Instr.frameB2A 0#16 (zeros 65536)).wf = false := by simp [Instr.wf]

/-! ### Decoding, from words written out bit by bit -/

theorem test_decode_encode : decode (.cmd 0b0#1 [0xA1#8, 0xB1#8]) = .ok (.encode [0xA1#8, 0xB1#8]) := by rfl
theorem test_decode_decode : decode (.cmd 0b1#1 []) = .ok (.decode []) := by rfl
theorem test_decode_reset : decode (.rst 0b1#1) = .ok .reset := by rfl
theorem test_decode_noReset : decode (.rst 0b0#1) = .error .resetNotAsserted := by rfl
theorem test_decode_encodeHeader :
    decode (.hdrEncode 0b001100001010000100000001000000101010101111001101#48) = .ok (.encodeHeader 258) := by rfl
theorem test_decode_encodeHeader_typeBits :
    decode (.hdrEncode 0b001100000000000000000001000000101010101111001101#48) = .error .headerTypeBits := by rfl
theorem test_decode_decodeChannel : decode (.hdrChannel [0b01111111#8]) = .ok (.decodeChannel [0x7F#8]) := by rfl
theorem test_decode_decodeChannel_empty : decode (.hdrChannel []) = .error .channelOfEmptyFrame := by rfl
theorem test_decode_decodeLength_short :
    decode (.hdrLength [0x31#8, 0xA1#8, 0x00#8]) = .error .lengthOfShortFrame := by rfl
theorem test_decode_decodeLength : decode (.hdrLength [0x00#8, 0x00#8, 0b00010010#8, 0b00110100#8]) =
    .ok (.decodeLength [0x00#8, 0x00#8, 0x12#8, 0x34#8]) := by rfl
theorem test_decode_seqAdvance : decode (.fn 0b1111111111111110#16) = .ok (.seqAdvance 65534#16) := by rfl
theorem test_decode_frameA2B : decode (.received [0b00110000#8, 0b10100001#8, 0b00000000#8, 0b00000001#8,
    0b00010010#8, 0b00110100#8, 0xAA#8]) = .ok (.frameA2B 0x1234#16 [0xAA#8]) := by rfl
theorem test_decode_frameB2A : decode (.received [0b00110001#8, 0b10100001#8, 0b00000000#8, 0b00000000#8,
    0b00000000#8, 0b00000111#8]) = .ok (.frameB2A 7#16 []) := by rfl
/-- One byte too many is no frame of the FRAME rows: DECODE judges it (R83). -/
theorem test_decode_received_surplus :
    decode (.received [0x31#8, 0xA1#8, 0x00#8, 0x00#8, 0x00#8, 0x07#8, 0xAA#8]) =
      .ok (.decode [0x31#8, 0xA1#8, 0x00#8, 0x00#8, 0x00#8, 0x07#8, 0xAA#8]) := by rfl
theorem test_table_frameB2A : decodeTableWord 48 0x31A100020007 = some (.frameB2A 7#16 [0#8, 0#8]) := by rfl
theorem test_table_seqAdvance : decodeTableWord 16 0xFFFE = some (.seqAdvance 65534#16) := by rfl

/-! ### Operations -/

/-- S1. -/
theorem test_encode_S1 : seen (exec (.encode [0xA1#8, 0xB1#8]) (inst .A .len16 0#16)) =
    some (1#16, some (.result .encode ⟨.ok, [0x30#8, 0xA1#8, 0x00#8, 0x02#8, 0x00#8, 0x00#8, 0xA1#8, 0xB1#8]⟩)) := by decide

/-- V20, the second command: the frame carries 65535 and the counter wraps. -/
theorem test_encode_V20 : seen (exec (.encode [0x01#8, 0x02#8]) (inst .A .len16 65535#16)) =
    some (0#16, some (.result .encode ⟨.ok, [0x30#8, 0xA1#8, 0x00#8, 0x02#8, 0xFF#8, 0xFF#8, 0x01#8, 0x02#8]⟩)) := by decide

/-- V58, with payload bytes of zero: 256 bytes under LEN8. -/
theorem test_encode_V58 : exec (.encode (zeros 256)) (inst .A .len8 1#16) =
    .next ((inst .A .len8 1#16).post (.result .encode ⟨.payloadTooLarge, []⟩)) := by
  rw [exec_encode, encodeFrame_tooLarge _ _ (by simp [inst, maxPayload])]
  rfl

/-- V31, both lines: the length bytes 01 02. -/
theorem test_decode_V31 :
    seen (exec (.decode [0x31#8, 0xA1#8, 0x01#8, 0x02#8, 0x00#8, 0x00#8, 0xA1#8, 0xB1#8]) (inst .A .len16 5#16)) =
      some (5#16, some (.result .decode ⟨.truncatedFrame, []⟩)) ∧
    seen (exec (.decode [0x31#8, 0xA1#8, 0x01#8, 0x02#8, 0x00#8, 0x00#8, 0xA1#8, 0xB1#8]) (inst .A .len8 5#16)) =
      some (5#16, some (.result .decode ⟨.ok, [0xA1#8, 0xB1#8]⟩)) := by decide

/-- V39 and V50: the channel is tested before the header; `6 + 65535` does not wrap. -/
theorem test_decode_V39_V50 :
    seen (exec (.decode [0x30#8, 0xA1#8, 0x00#8, 0x02#8, 0x00#8]) (inst .A .len16 0#16)) =
      some (0#16, some (.result .decode ⟨.unexpectedFrame, [0x30#8, 0xA1#8, 0x00#8, 0x02#8, 0x00#8]⟩)) ∧
    seen (exec (.decode [0x31#8, 0xA1#8, 0xFF#8, 0xFF#8, 0x00#8, 0x00#8]) (inst .A .len16 0#16)) =
      some (0#16, some (.result .decode ⟨.truncatedFrame, []⟩)) := by decide

/-- P5: reset in mid-life. -/
theorem test_reset_P5 : seen (exec .reset (inst .A .len16 2#16)) = some (0#16, some .resetTaken) := by decide

/-- V8 and V7. -/
theorem test_encodeHeader_V8_V7 :
    seen (exec (.encodeHeader 0x0102) (inst .A .len16 0xABCD#16)) =
      some (0xABCE#16, some (.header [0x30#8, 0xA1#8, 0x01#8, 0x02#8, 0xAB#8, 0xCD#8])) ∧
    seen (exec (.encodeHeader 2) (inst .B .len16 0#16)) =
      some (1#16, some (.header [0x31#8, 0xA1#8, 0x00#8, 0x02#8, 0x00#8, 0x00#8])) := by decide

/-- V10. -/
theorem test_decodeChannel_V10 : seen (exec (.decodeChannel [0x7F#8]) (inst .A .len16 9#16)) =
    some (9#16, some (.channel 0x7F#8)) := by decide

/-- V14: 4660 under LEN16, 0x34 under LEN8. -/
theorem test_decodeLength_V14 :
    seen (exec (.decodeLength [0x00#8, 0x00#8, 0x12#8, 0x34#8]) (inst .A .len16 9#16)) =
      some (9#16, some (.length 4660#16)) ∧
    seen (exec (.decodeLength [0x00#8, 0x00#8, 0x12#8, 0x34#8]) (inst .A .len8 9#16)) =
      some (9#16, some (.length 0x34#16)) := by decide

/-- V17 and V19. -/
theorem test_seqAdvance_V17_V19 :
    seen (exec (.seqAdvance 255#16) (inst .A .len16 9#16)) = some (9#16, some (.advanced 256#16)) ∧
    seen (exec (.seqAdvance 65535#16) (inst .A .len16 9#16)) = some (9#16, some (.advanced 0#16)) := by decide

/-- V59, the second and third lines. -/
theorem test_frameA2B_V59 :
    seen (exec (.frameA2B 0x1234#16 [0xDE#8, 0xAD#8, 0xBE#8, 0xEF#8]) (inst .B .len16 3#16)) =
      some (3#16, some (.result .decode ⟨.ok, [0xDE#8, 0xAD#8, 0xBE#8, 0xEF#8]⟩)) ∧
    seen (exec (.frameA2B 0x1234#16 [0xDE#8, 0xAD#8]) (inst .A .len16 3#16)) =
      some (3#16, some (.result .decode ⟨.unexpectedFrame, [0x30#8, 0xA1#8, 0x00#8, 0x02#8, 0x12#8, 0x34#8, 0xDE#8, 0xAD#8]⟩)) := by decide

/-- S3 at endpoint A, and V53 at endpoint B. -/
theorem test_frameB2A_S3_V53 :
    seen (exec (.frameB2A 1#16 [0xA1#8, 0xB1#8, 0xA2#8, 0xB2#8]) (inst .A .len16 3#16)) =
      some (3#16, some (.result .decode ⟨.ok, [0xA1#8, 0xB1#8, 0xA2#8, 0xB2#8]⟩)) ∧
    seen (exec (.frameB2A 0#16 [0xA1#8, 0xB1#8]) (inst .B .len16 3#16)) =
      some (3#16, some (.result .decode ⟨.unexpectedFrame, [0x31#8, 0xA1#8, 0x00#8, 0x02#8, 0x00#8, 0x00#8, 0xA1#8, 0xB1#8]⟩)) := by decide

/-- A step takes the first command and leaves the second; the word is presented ahead of both. -/
theorem test_step_one_input :
    seen (step ((inst .A .len16 1#16).withPending [.cmd 0#1 [], .rst 1#1])) =
      some (2#16, some (.result .encode ⟨.ok, [0x30#8, 0xA1#8, 0x00#8, 0x00#8, 0x00#8, 0x01#8]⟩)) ∧
    seen (step (State.reset.withFetchWord 8 0)) =
      some (1#16, some (.result .encode ⟨.ok, [0x30#8, 0xA1#8, 0x00#8, 0x00#8, 0x00#8, 0x00#8]⟩)) :=
  by decide

/-- One too many under either mode, the limit under LEN8, and a frame too short to hold its length. -/
theorem test_refusals :
    refusal (exec (.encodeHeader 256) (inst .A .len8 0#16)) = some .headerLengthTooLarge ∧
    refusal (exec (.encodeHeader 65536) (inst .A .len16 0#16)) = some .headerLengthTooLarge ∧
    refusal (exec (.encodeHeader 255) (inst .A .len8 0#16)) = none ∧
    refusal (exec (.decodeLength [0x31#8, 0xA1#8, 0x00#8]) (inst .A .len8 0#16)) = some .lengthOfShortFrame := by decide

/-! ### The written form (30_encoding.md R60) -/

theorem test_readLine :
    readLine "X: ENCODE A1 B1   -> OK 30A100020000A1B1   ; X sends".toList =
      some { name := some ['X'], signal := .cmd 0#1 [0xA1#8, 0xB1#8] } ∧
    readLine "ENCODE 3*55".toList = some { name := none, signal := .cmd 0#1 [0x55#8, 0x55#8, 0x55#8] } ∧
    readLine "DECODE".toList = some { name := none, signal := .cmd 1#1 [] } ∧
    readLine "RESET                 ; assert reset".toList = some { name := none, signal := .rst 1#1 } ∧
    readLine "DECODE 31A".toList = none := by decide

theorem test_showResult : showResult ⟨.truncatedFrame, []⟩ = "TruncatedFrame []".toList ∧
    showResult ⟨.unexpectedFrame, [0x3A#8]⟩ = "UnexpectedFrame 3A".toList := by decide

/-- P3: two endpoints, one line given to Y. -/
theorem test_bench_P3 : (performLine { name := some ['Y'], signal := .cmd 1#1 [0x30#8, 0xA1#8, 0x00#8, 0x00#8, 0x00#8, 0x01#8] }
      [(['X'], inst .A .len16 2#16), (['Y'], inst .B .len16 1#16)]).map (fun b => b.map (fun p => (p.2.seq, p.2.transcript))) =
    some [(2#16, []), (1#16, [.result .decode ⟨.ok, []⟩])] := by decide

/-! ### Witnesses: states and operands that meet the hypotheses of the statements -/

/-- A received frame addressed to endpoint A, with one payload byte. -/
def frameForA : Bytes := [0x31#8, 0xA1#8, 0x00#8, 0x01#8, 0x00#8, 0x00#8, 0xAA#8]

/-- Endpoint A with every kind of caller's input before it. -/
def busy : State :=
  (inst .A .len16 65535#16).withPending [.cmd 0#1 [0x00#8], .cmd 1#1 frameForA, .received frameForA]

theorem witness_StepNeverChangesParameters : ∃ t, step busy = .next t := ⟨_, rfl⟩

/-- Both ends of the range, in both modes. -/
theorem witness_EncodeHeaderWritesHeaderThenAdvances :
    0 ≤ maxPayload (inst .A .len16 0#16).params.lenMode ∧ 65535 ≤ maxPayload (inst .A .len16 65535#16).params.lenMode ∧
    255 ≤ maxPayload (inst .B .len8 0#16).params.lenMode := by decide

theorem witness_HeaderFitsTheTablePattern : 65535 ≤ maxPayload (inst .B .len16 65535#16).params.lenMode := by decide

theorem witness_RefusedOutsideThePrecondition :
    maxPayload (inst .A .len16 0#16).params.lenMode < 65536 ∧ maxPayload (inst .A .len8 0#16).params.lenMode < 256 ∧
    ([] : Bytes).length < 4 ∧ [0x31#8, 0xA1#8, 0x00#8].length < 4 ∧ 65535 < (zeros 65536).length := by
  simp [inst, maxPayload]

theorem witness_SeqAdvanceComparesTheUnwrappedSum :
    (65535#16).toNat + 1 > 65535 ∧ (65534#16).toNat + 1 ≤ 65535 := by decide

theorem witness_SeqAdvanceIsOneCycleOf65536 : 65536 ∣ 131072 ∧ ¬ 65536 ∣ 65535 := by decide

theorem witness_SeqIsWrittenOnlyByEncodeAndReset :
    busy.CallerOnly = true ∧ (∃ t, step busy = .next t) ∧
    ((inst .A .len16 7#16).withPending [.rst 1#1]).CallerOnly = true ∧
    (∃ t, step ((inst .A .len16 7#16).withPending [.rst 1#1]) = .next t) := ⟨by decide, ⟨_, rfl⟩, by decide, ⟨_, rfl⟩⟩

theorem witness_StepKeepsTheNumbering : busy.Numbered 65535#16 = true ∧ ∃ t, step busy = .next t := ⟨by decide, ⟨_, rfl⟩⟩

/-- The empty frames numbered 65535 and 0, with a failed DECODE between them. -/
def wrapped : State := { inst .A .len16 1#16 with port := { pending := [], transcript :=
  [.result .encode ⟨.ok, [0x30#8, 0xA1#8, 0x00#8, 0x00#8, 0x00#8, 0x00#8]⟩,
   .result .decode ⟨.truncatedFrame, []⟩,
   .result .encode ⟨.ok, [0x30#8, 0xA1#8, 0x00#8, 0x00#8, 0xFF#8, 0xFF#8]⟩] } }

theorem witness_ConsecutiveFramesCarryConsecutiveNumbers : wrapped.Numbered 65535#16 = true ∧
    wrapped.transcript = [] ++ .result .encode ⟨.ok, [0x30#8, 0xA1#8, 0x00#8, 0x00#8, 0x00#8, 0x00#8]⟩ ::
      ([.result .decode ⟨.truncatedFrame, []⟩] ++
        .result .encode ⟨.ok, [0x30#8, 0xA1#8, 0x00#8, 0x00#8, 0xFF#8, 0xFF#8]⟩ :: []) ∧
    (∀ e ∈ [Event.result .decode ⟨.truncatedFrame, []⟩], e ≠ .resetTaken ∧ e.built? = none) := by
  decide

theorem witness_RunsCompleteAndNumberEveryFrame : busy.CallerOnly = true ∧ busy.NoResetPending = true := by decide

/-- The last payload that fits and the first that does not, in both modes. -/
theorem witness_EncodeBuildsTheFrameOrReportsTooLarge :
    (zeros 65535).length ≤ maxPayload (inst .A .len16 0#16).params.lenMode ∧
    maxPayload (inst .A .len16 0#16).params.lenMode < (zeros 65536).length ∧
    (zeros 255).length ≤ maxPayload (inst .A .len8 0#16).params.lenMode ∧
    maxPayload (inst .A .len8 0#16).params.lenMode < (zeros 256).length := by simp [inst, maxPayload]

theorem witness_FramesOfOnePayloadDifferInTheSequenceOnly :
    (inst .A .len16 0#16).params.role = (inst .A .len8 1#16).params.role ∧
    (zeros 255).length ≤ maxPayload (inst .A .len16 0#16).params.lenMode ∧
    (zeros 255).length ≤ maxPayload (inst .A .len8 1#16).params.lenMode := by simp [inst, maxPayload]

/-- Each clause: empty; another channel; 1 and 5 bytes; one byte short of the payload; the payload exactly. -/
theorem witness_DecodeResultForEveryOperand :
    (0x30#8 ≠ rxChannel (inst .A .len16 0#16).params.role) ∧
    ([0x31#8] : Bytes) = rxChannel (inst .A .len16 0#16).params.role :: [] ∧ ([0x31#8] : Bytes).length < 6 ∧
    ([0x31#8, 0xA1#8, 0x00#8, 0x02#8, 0x00#8] : Bytes) =
      rxChannel (inst .A .len16 0#16).params.role :: [0xA1#8, 0x00#8, 0x02#8, 0x00#8] ∧
    ([0x31#8, 0xA1#8, 0x00#8, 0x02#8, 0x00#8] : Bytes).length < 6 ∧
    frameForA = rxChannel (inst .A .len16 0#16).params.role :: 0xA1#8 :: 0x00#8 :: 0x01#8 :: 0x00#8 :: 0x00#8 :: [0xAA#8] ∧
    (1 = (0x00#8).toNat * 256 + (0x01#8).toNat) ∧ 6 + 1 ≤ frameForA.length ∧ (frameForA.take 6).length < 6 + 1 := by
  decide

theorem witness_DecodeRejectsEveryOtherChannel :
    0x00#8 ≠ rxChannel (inst .A .len16 0#16).params.role ∧ 0x31#8 ≠ rxChannel (inst .B .len16 0#16).params.role := by
  decide

theorem witness_LengthHighByteUnderLen8 : (inst .A .len8 0#16).params.lenMode = .len8 ∧
    (zeros 255).length ≤ maxPayload (inst .A .len8 0#16).params.lenMode := by simp [inst, maxPayload]

theorem witness_DecodeIgnoresSurplusBytes : ∃ t, exec (.decode frameForA) busy = .next t ∧
    t.transcript = .result .decode ⟨.ok, [0xAA#8]⟩ :: busy.transcript := ⟨_, rfl, by decide⟩

theorem witness_DecodeNeverReadsOrWritesSeq : (inst .A .len16 0#16).params = (inst .A .len16 65535#16).params := rfl

/-- The whole operand, and the empty slice at its end. -/
theorem witness_SliceCopiesExactlyTheBytesAsked : 0 + 7 ≤ frameForA.length ∧ 7 + 0 ≤ frameForA.length ∧
    ∃ t, exec (.decode frameForA) busy = .next t ∧
      t.transcript = .result .decode ⟨.ok, [0xAA#8]⟩ :: busy.transcript :=
  ⟨by decide, by decide, ⟨_, rfl, by decide⟩⟩

theorem witness_RoundTripBetweenOppositeEnds :
    (inst .A .len16 4660#16).params.role ≠ (inst .B .len16 0#16).params.role ∧
    (inst .A .len16 4660#16).params.lenMode = (inst .B .len16 0#16).params.lenMode ∧
    (zeros 65535).length ≤ maxPayload (inst .A .len16 4660#16).params.lenMode := by simp [inst, maxPayload]

theorem witness_LengthModeMismatchReadsShort :
    (inst .A .len16 0#16).params.role ≠ (inst .B .len8 0#16).params.role ∧
    (inst .A .len16 0#16).params.lenMode ≠ (inst .B .len8 0#16).params.lenMode ∧
    (zeros 256).length ≤ maxPayload (inst .A .len16 0#16).params.lenMode ∧
    (zeros 255).length ≤ maxPayload (inst .B .len8 0#16).params.lenMode := by simp [inst, maxPayload]

theorem witness_ArrivingFrameIsDecoded : ([] : Bytes).length ≤ 65535 ∧ (zeros 65535).length ≤ 65535 := by
  simp

theorem witness_ReceivedBytesAreJudgedByDecode :
    decode (.received frameForA) = .ok (.frameB2A 0#16 [0xAA#8]) ∧ decode (.received []) = .ok (.decode []) := ⟨rfl, rfl⟩

theorem witness_StepKeepsEveryResultLegal : wrapped.EventsLegal = true ∧ ∃ t, step wrapped = .next t := ⟨by decide, ⟨_, rfl⟩⟩

theorem witness_ErrorLeavesTheBlockAsItWas : ∃ t, exec (.decode []) busy = .next t ∧
    t.transcript = .result .decode ⟨.truncatedFrame, []⟩ :: busy.transcript ∧
    Status.truncatedFrame ≠ .ok ∧ ∃ u, exec (.encode []) busy = .next u := ⟨_, rfl, by decide, by decide, ⟨_, rfl⟩⟩

theorem witness_EveryCommandEndsWithOneResult : busy.CallerOnly = true ∧
    busy.pending = .cmd 0#1 [0x00#8] :: [.cmd 1#1 frameForA, .received frameForA] ∧
    isCommand (.cmd 0#1 [0x00#8]) = true := by decide

theorem witness_StepPerformsTheNextInput : State.reset.pending = [] ∧
    (busy.pending = .cmd 0#1 [0x00#8] :: [.cmd 1#1 frameForA, .received frameForA] ∧
      decode (.cmd 0#1 [0x00#8]) = .ok (.encode [0x00#8])) ∧
    (State.reset.withPending [.rst 0#1]).pending = .rst 0#1 :: [] ∧ decode (.rst 0#1) = .error .resetNotAsserted ∧
    (State.reset.withPending [.hdrChannel []]).pending = .hdrChannel [] :: [] ∧
    decode (.hdrChannel []) = .error .channelOfEmptyFrame ∧ DecodeError.channelOfEmptyFrame ≠ .resetNotAsserted :=
  ⟨rfl, ⟨rfl, rfl⟩, rfl, rfl, rfl, rfl, by decide⟩

theorem witness_PresentedTableWordRunsAtOnce : decodeTableWord 48 0x31A100020000 = some (.frameB2A 0#16 [0#8, 0#8]) ∧
    decodeTableWord 8 1 = some (.decode []) ∧ decodeTableWord 16 65535 = some (.seqAdvance 65535#16) := ⟨rfl, rfl, rfl⟩

theorem witness_DecodeOfEncodeGivesTheOperationBack : (Instr.encodeHeader 65535).wf = true ∧
    (Instr.decodeChannel [0x00#8]).wf = true ∧ (Instr.decodeLength [0x00#8, 0x00#8, 0x00#8, 0x00#8]).wf = true ∧
    (Instr.frameA2B 65535#16 (zeros 65535)).wf = true ∧
    (Instr.frameB2A 0#16 []).wf = true := by simp [Instr.wf]

/-- A name of one character and the empty name. -/
theorem witness_WrittenCommandReadsBack : ['X'].head? ≠ some ' ' ∧ (∀ c ∈ ['X'], c ≠ ':' ∧ c ≠ ';' ∧ c ≠ '-') ∧
    ([] : List Char).head? ≠ some ' ' := ⟨by decide, by simp, by decide⟩

theorem witness_InstancesShareNothing : ∃ b', performLine { name := some ['Y'], signal := .rst 1#1 }
    [(['X'], inst .A .len16 2#16), (['Y'], inst .B .len16 1#16)] = some b' := ⟨_, rfl⟩

end Sys2Proof.Tests
end

/-! What a step can do over inputs a caller can present, and the claims about `SEQ` (spec 10_state.md). -/

namespace Sys2Proof.Machine

/-- The operations that an input a caller can present stands for; the internal ones are not among them (R58, D5). -/
theorem decode_ok_of_callerMayPresent {sig : Signal} {i : Instr} (hc : callerMayPresent sig = true)
    (h : decode sig = .ok i) :
    (∃ IN, i = .encode IN) ∨ (∃ IN, i = .decode IN) ∨ i = .reset ∨
      ∃ n payload, payload.length ≤ 65535 ∧ (i = .frameA2B n payload ∨ i = .frameB2A n payload) := by
  obtain ⟨op, IN, rfl⟩ | ⟨line, rfl⟩ | ⟨bytes, rfl⟩ := callerMayPresent_cases hc
  · cases h
    by_cases hop : op = 0#1
    · exact .inl ⟨IN, if_pos hop⟩
    · exact .inr (.inl ⟨IN, if_neg hop⟩)
  · rw [decode] at h
    split at h
    · cases h
      exact .inr (.inr (.inl rfl))
    · cases h
  · cases h
    obtain hd | ⟨n, payload, hp, ⟨hf, -⟩ | ⟨hf, -⟩⟩ := decodeReceived_spec bytes
    · exact .inr (.inl ⟨bytes, hd⟩)
    · exact .inr (.inr (.inr ⟨n, payload, hp, .inl hf⟩))
    · exact .inr (.inr (.inr ⟨n, payload, hp, .inr hf⟩))

/-- All that performing an input a caller can present can do when it goes on: ENCODE, DECODE of some operand (a frame
that arrives is one), or reset. -/
theorem exec_next_cases_of_callerMayPresent {sig : Signal} {i : Instr} {s t : State}
    (hc : callerMayPresent sig = true) (hd : decode sig = .ok i) (h : exec i s = .next t) :
    (∃ IN, t = (s.setSeq (encodeFrame s.params s.seq IN).2).post (.result .encode (encodeFrame s.params s.seq IN).1)) ∨
    (∃ IN, t = s.post (.result .decode (decodeFrame s.params IN))) ∨
    t = (s.setSeq 0#16).post .resetTaken := by
  obtain ⟨IN, rfl⟩ | ⟨IN, rfl⟩ | rfl | ⟨n, payload, hp, rfl | rfl⟩ := decode_ok_of_callerMayPresent hc hd
  · cases h
    exact .inl ⟨IN, rfl⟩
  · cases h
    exact .inr (.inl ⟨IN, rfl⟩)
  · cases h
    exact .inr (.inr rfl)
  · rw [exec_frameA2B hp] at h
    cases h
    exact .inr (.inl ⟨_, rfl⟩)
  · rw [exec_frameB2A hp] at h
    cases h
    exact .inr (.inl ⟨_, rfl⟩)

/-- All that a step over inputs a caller can present can do when it goes on, once its input is taken: nothing, ENCODE,
DECODE of some operand, or reset. -/
theorem step_next_cases_of_callerOnly {s t : State} (hc : s.CallerOnly = true) (h : step s = .next t) :
    t = s.withPending s.pending.tail ∨
    (∃ IN, t = ((s.withPending s.pending.tail).setSeq (encodeFrame s.params s.seq IN).2).post
      (.result .encode (encodeFrame s.params s.seq IN).1)) ∨
    (∃ IN, t = (s.withPending s.pending.tail).post (.result .decode (decodeFrame s.params IN))) ∨
    t = ((s.withPending s.pending.tail).setSeq 0#16).post .resetTaken := by
  obtain ⟨hp, rfl⟩ | ⟨sig, rest, hp, ⟨-, rfl⟩ | ⟨i, hd, he⟩⟩ := step_next_cases h
  · exact .inl (by rw [hp, List.tail_nil, ← hp, pending_eq, withPending_same])
  · exact .inl (by rw [hp, List.tail_cons])
  · have hsig : callerMayPresent sig = true := by
      rw [State.CallerOnly, hp, List.all_cons, Bool.and_eq_true] at hc
      exact hc.1
    rw [hp, List.tail_cons]
    exact .inr (exec_next_cases_of_callerMayPresent hsig hd he)

/-- Settles O14, by cases on what a step over a caller's inputs can do: of these, ENCODE within the size limit advances
`SEQ`, reset clears it, and nothing else writes it. -/
theorem seqIsWrittenOnlyByEncodeAndReset : Obligations.SeqIsWrittenOnlyByEncodeAndReset := by
  intro s t hc h
  obtain rfl | ⟨IN, rfl⟩ | ⟨IN, rfl⟩ | rfl := step_next_cases_of_callerOnly hc h
  · exact .inr (.inr ⟨rfl, by simp, by simp⟩)
  · obtain ⟨-, he⟩ | ⟨-, he⟩ := encodeFrame_cases s.params s.seq IN
    · rw [he]
      exact .inl ⟨frameBytes (txChannel s.params.role) s.seq IN, rfl, BitVec.toNat_add _ _⟩
    · rw [he]
      exact .inr (.inr ⟨rfl, by simp, by simp [raise, Err.status]⟩)
  · exact .inr (.inr ⟨rfl, by simp, by simp⟩)
  · exact .inr (.inl ⟨rfl, rfl⟩)

/-- Settles O1: the reset state is a literal, and this is its one register. -/
theorem resetStateHasSeqZero : Obligations.ResetStateHasSeqZero := rfl

end Sys2Proof.Machine

/-! What a command hands out, and the claims about the bytes of a frame (spec 30_encoding.md). -/

namespace Sys2Proof.Machine

/-- DECODE completes from every state on every operand, hands out what `decodeFrame` says, and leaves `SEQ` (R79, R84). -/
theorem exec_decode_yields (IN : Bytes) (s : State) : ∃ t, exec (.decode IN) s = .next t ∧
    Yields s t (.result .decode (decodeFrame s.params IN)) ∧ t.seq = s.seq :=
  ⟨_, exec_decode IN s, ⟨rfl, rfl, rfl⟩, rfl⟩

/-- ENCODE within the size limit completes and hands out the frame that carries the old `SEQ` (R76). -/
theorem exec_encode_yields_frame {IN : Bytes} {s : State} (h : IN.length ≤ maxPayload s.params.lenMode) :
    ∃ t, exec (.encode IN) s = .next t ∧
      Yields s t (.result .encode (returnOk (frameBytes (txChannel s.params.role) s.seq IN))) := by
  refine ⟨_, exec_encode IN s, ?_⟩
  rw [encodeFrame_ok _ _ h]
  exact ⟨rfl, rfl, rfl⟩

/-- An operand of another channel is rejected whole (R52, R85). -/
theorem exec_decode_wrongChannel {s : State} {c : Byte} (rest : Bytes) (h : c ≠ rxChannel s.params.role) :
    ∃ t, exec (.decode (c :: rest)) s = .next t ∧
      Yields s t (.result .decode { status := .unexpectedFrame, out := c :: rest }) ∧ t.seq = s.seq := by
  have hy := exec_decode_yields (c :: rest) s
  rwa [decodeFrame_wrongChannel _ rest h] at hy

/-- Settles O22: the channel test fails on every byte but `RX_CHANNEL`, and `TX_CHANNEL` is such a byte. -/
theorem decodeRejectsEveryOtherChannel : Obligations.DecodeRejectsEveryOtherChannel :=
  ⟨fun _ _ rest hc => exec_decode_wrongChannel rest hc,
    fun s rest => exec_decode_wrongChannel rest (txChannel_ne_rxChannel s.params.role)⟩

/-- The length high byte of a payload that fits one length byte is 0 (R49). -/
theorem lenHi_eq_zero {L : Nat} (h : L ≤ 255) : lenHi L = 0x00#8 := by
  apply BitVec.eq_of_toNat_eq
  rw [lenHi_toNat (by omega)]
  exact Nat.div_eq_of_lt (by omega)

/-- The byte of a frame at offset 2 is the length high byte (R41, R49). -/
theorem frameBytes_getElem?_two (c : Byte) (n : Word16) (payload : Bytes) :
    (frameBytes c n payload)[2]? = some (lenHi payload.length) := rfl

/-- Under LEN8 the length high byte has no part in the length a header declares (R51, R55). -/
theorem declared_len8 (hi lo : Byte) : declared .len8 hi lo = lo.toNat := rfl

/-- Under LEN8 DECODE gives the same result whatever the length high byte is (R55). -/
theorem decodeFrame_lenHi_of_len8 {p : Params} (h : p.lenMode = .len8) (m hi hi' lo s1 s0 : Byte) (body : Bytes) :
    decodeFrame p (rxChannel p.role :: m :: hi' :: lo :: s1 :: s0 :: body) =
      decodeFrame p (rxChannel p.role :: m :: hi :: lo :: s1 :: s0 :: body) := by
  simp only [decodeFrame_whole, h, declared_len8]

/-- Settles O24: a payload within the limit of LEN8 fits the low length byte, so the frame built has 0 above it; and on
receive the declared length is the low byte alone. -/
theorem lengthHighByteUnderLen8 : Obligations.LengthHighByteUnderLen8 := by
  intro s h8
  constructor
  · intro IN hIN
    obtain ⟨t, ht, hy⟩ := exec_encode_yields_frame hIN
    have hfits : IN.length ≤ 255 := by rwa [h8] at hIN
    exact ⟨t, _, ht, hy, by rw [frameBytes_getElem?_two, lenHi_eq_zero hfits]⟩
  · intro m hi hi' lo s1 s0 body
    obtain ⟨t, ht, hy, -⟩ := exec_decode_yields (rxChannel s.params.role :: m :: hi :: lo :: s1 :: s0 :: body) s
    obtain ⟨t', ht', hy', -⟩ := exec_decode_yields (rxChannel s.params.role :: m :: hi' :: lo :: s1 :: s0 :: body) s
    rw [decodeFrame_lenHi_of_len8 h8 m hi hi'] at hy'
    exact ⟨t, t', _, ht, ht', hy, hy'⟩

end Sys2Proof.Machine

/-! What the operations of the Header Codec hand out, and the claims about them (spec 40_header_codec.md). -/

namespace Sys2Proof.Machine

/-- Moving `SEQ` on by one is the un-wrapped sum, put to 0 when it exceeds 65535 (R67). -/
theorem toNat_add_one_eq_ite (v : Word16) :
    (v + 1#16).toNat = if v.toNat + 1 > 65535 then 0 else v.toNat + 1 := by
  have hv := v.isLt
  have hsum : (v + 1#16).toNat = (v.toNat + 1) % 65536 := BitVec.toNat_add v 1#16
  split <;> omega

/-- ENCODE_HEADER within its precondition completes, hands out the header that carries the old `SEQ`, and moves `SEQ`
on by one (R61). -/
theorem exec_encodeHeader_yields {L : Nat} {s : State} (h : L ≤ maxPayload s.params.lenMode) :
    ∃ t, exec (.encodeHeader L) s = .next t ∧
      Yields s t (.header (headerBytes (txChannel s.params.role) L s.seq)) ∧ t.seq = s.seq + 1#16 :=
  ⟨_, exec_encodeHeader h, ⟨rfl, rfl, rfl⟩, rfl⟩

/-- Settles O6: the bytes handed out are those of `headerBytes`, whose length bytes hold `L` because `MAX_PAYLOAD` fits
16 bits; the new `SEQ` is the old one plus one. -/
theorem encodeHeaderWritesHeaderThenAdvances : Obligations.EncodeHeaderWritesHeaderThenAdvances := by
  intro s L hL
  have hL16 : L ≤ 65535 := hL.trans (maxPayload_le _)
  obtain ⟨t, ht, hy, hseq⟩ := exec_encodeHeader_yields hL
  refine ⟨t, lenHi L, lenLo L, hiByte s.seq, loByte s.seq, ht, hy,
    lenHi_toNat hL16, lenLo_toNat L, hiByte_toNat _, loByte_toNat _, ?_⟩
  rw [hseq, toNat_add_one_eq_ite]

/-- Settles O8: a frame with a first byte meets the precondition of DECODE_CHANNEL, which reads that byte and only hands
it out. -/
theorem decodeChannelReturnsFirstByte : Obligations.DecodeChannelReturnsFirstByte := by
  intro s c rest
  have nonempty : 1 ≤ (c :: rest).length := Nat.le_add_left 1 rest.length
  exact ⟨_, exec_decodeChannel nonempty s, ⟨rfl, rfl, rfl⟩, rfl⟩

end Sys2Proof.Machine

/-! What the sequence counter hands out, and that DECODE has no part in it (spec 41_sequence_counter.md). -/

namespace Sys2Proof.Machine

/-- SEQ_ADVANCE completes from every state on every number, hands out its increment, and leaves `SEQ` (R67, R68). -/
theorem exec_seqAdvance_yields (v : Word16) (s : State) : ∃ t, exec (.seqAdvance v) s = .next t ∧
    Yields s t (.advanced (v + 1#16)) ∧ t.seq = s.seq :=
  ⟨_, exec_seqAdvance v s, ⟨rfl, rfl, rfl⟩, rfl⟩

/-- Settles O12: the value handed out is the increment in 16 bits, which is the un-wrapped sum put to 0 above 65535. -/
theorem seqAdvanceComparesTheUnwrappedSum : Obligations.SeqAdvanceComparesTheUnwrappedSum := by
  intro s v
  obtain ⟨t, ht, hy, hseq⟩ := exec_seqAdvance_yields v s
  refine ⟨t, v + 1#16, ht, hy, hseq, fun hover => ?_, fun hfits => ?_⟩
  · rw [toNat_add_one_eq_ite, if_pos hover]
  · rw [toNat_add_one_eq_ite, if_neg (Nat.not_lt.mpr hfits)]

/-- Settles O26: what DECODE hands out is a function of the parameters and the operand alone, so equal parameters give
equal results, and it leaves `SEQ` on every path. -/
theorem decodeNeverReadsOrWritesSeq : Obligations.DecodeNeverReadsOrWritesSeq := by
  intro x y IN hparams
  obtain ⟨x', hx, hyx, hseqx⟩ := exec_decode_yields IN x
  obtain ⟨y', hy, hyy, hseqy⟩ := exec_decode_yields IN y
  rw [← hparams] at hyy
  exact ⟨x', y', decodeFrame x.params IN, hx, hy, hyx, hyy, hseqx, hseqy⟩

end Sys2Proof.Machine

/-! What the Packet Codec hands out: the frame of ENCODE and the slice of DECODE (spec 42_packet_codec.md). -/

namespace Sys2Proof.Machine

/-- ENCODE within the size limit hands out the frame that carries the old `SEQ`, and moves `SEQ` on by one (R76). -/
theorem exec_encode_fits {IN : Bytes} {s : State} (h : IN.length ≤ maxPayload s.params.lenMode) :
    exec (.encode IN) s = .next ((s.setSeq (s.seq + 1#16)).post
      (.result .encode (returnOk (frameBytes (txChannel s.params.role) s.seq IN)))) := by
  rw [exec_encode, encodeFrame_ok _ _ h]

/-- ENCODE beyond the size limit hands out the error and changes nothing else (R70, R76). -/
theorem exec_encode_tooLarge {IN : Bytes} {s : State} (h : maxPayload s.params.lenMode < IN.length) :
    exec (.encode IN) s = .next (s.post (.result .encode (raise .payloadTooLarge []))) := by
  rw [exec_encode, encodeFrame_tooLarge _ _ h, seq_eq, setSeq_same]

/-- Settles O18: the size test splits the operands. The frame's length bytes hold the payload's length because
`MAX_PAYLOAD` fits 16 bits, and its last two header bytes are those of the old `SEQ`. -/
theorem encodeBuildsTheFrameOrReportsTooLarge : Obligations.EncodeBuildsTheFrameOrReportsTooLarge := by
  intro s IN
  constructor
  · intro hfits
    have h16 : IN.length ≤ 65535 := hfits.trans (maxPayload_le _)
    exact ⟨_, lenHi IN.length, lenLo IN.length, hiByte s.seq, loByte s.seq, exec_encode_fits hfits, ⟨rfl, rfl, rfl⟩,
      lenHi_toNat h16, lenLo_toNat _, hiByte_toNat _, loByte_toNat _, BitVec.toNat_add _ _⟩
  · intro hover
    exact ⟨_, exec_encode_tooLarge hover, ⟨rfl, rfl, rfl⟩, rfl⟩

/-- Narrowing a 16-bit field to a byte is what the mask of R50 selects. -/
theorem loByte_eq_setWidth (v : Word16) : loByte v = v.setWidth 8 := by
  apply BitVec.eq_of_toNat_eq
  rw [loByte_toNat, BitVec.toNat_setWidth]

/-- A frame with no payload is its header, whose length bytes are 0 (R77). -/
theorem frameBytes_nil (c : Byte) (v : Word16) :
    frameBytes c v [] = [c, 0xA1#8, 0x00#8, 0x00#8, (v >>> 8).setWidth 8, v.setWidth 8] := by
  rw [← loByte_eq_setWidth v]
  rfl

/-- Settles O19: the empty payload is within the limit of either mode, and its frame is the header alone. -/
theorem encodeOfTheEmptyPayload : Obligations.EncodeOfTheEmptyPayload := by
  intro s
  have hfits : ([] : Bytes).length ≤ maxPayload s.params.lenMode := Nat.zero_le _
  refine ⟨_, exec_encode_fits hfits, ?_, rfl⟩
  rw [frameBytes_nil]
  exact ⟨rfl, rfl, rfl⟩

/-- The slicer yields the bytes asked for, no more and no fewer (R81). -/
theorem slice_spec (F : Bytes) (off n : Nat) (inside : off + n ≤ F.length) :
    (slice F off n inside).length = n ∧ ∀ i, i < n → (slice F off n inside)[i]? = F[off + i]? := by
  rw [slice, memWrite_nil]
  exact memRead_spec F off n inside

/-- A payload that DECODE returns is the slice of its length, at the operand's offset 6 (R79, R81). -/
theorem decodeFrame_ok_eq_slice {p : Params} {IN out : Bytes}
    (h : decodeFrame p IN = { status := .ok, out := out }) :
    ∃ inside : 6 + out.length ≤ IN.length, out = slice IN 6 out.length inside := by
  obtain ⟨m, hi, lo, s1, s0, body, rfl, hle, rfl⟩ := decodeFrame_eq_ok h
  have hlen : (body.take (declared p.lenMode hi lo)).length = declared p.lenMode hi lo := List.length_take_of_le hle
  refine ⟨?_, ?_⟩
  · simp only [hlen, List.length_cons]
    omega
  · simp only [slice_eq, hlen, List.drop_succ_cons, List.drop_zero]

/-- The result that the transcript shows after a DECODE is the one `decodeFrame` gives (R79). -/
theorem decodeFrame_of_exec_decode {s t : State} {IN : Bytes} {r : Result} (h : exec (.decode IN) s = .next t)
    (ht : t.transcript = .result .decode r :: s.transcript) : decodeFrame s.params IN = r := by
  cases h
  cases ht
  rfl

/-- Settles O27: the slicer copies what a read gives, and a payload that DECODE returns is its slice at offset 6. -/
theorem sliceCopiesExactlyTheBytesAsked : Obligations.SliceCopiesExactlyTheBytesAsked := by
  constructor
  · exact slice_spec
  · intro s t IN p h ht
    obtain ⟨inside, hp⟩ := decodeFrame_ok_eq_slice (decodeFrame_of_exec_decode h ht)
    refine ⟨inside, fun i hi => ?_⟩
    rw [hp]
    exact (slice_spec IN 6 p.length inside).2 i hi

end Sys2Proof.Machine

/-! The claim about the reset input (spec 70_reset_and_hazards.md). -/

namespace Sys2Proof.Machine

/-- Settles O4: the state after RESET is the old one with `SEQ` written and the mark of a reset posted; the first leaves
the parameters and the port as they are, and the mark is no result. -/
theorem resetInputClearsSeqAndNothingElse : Obligations.ResetInputClearsSeqAndNothingElse := fun s =>
  ⟨_, exec_reset s, setSeq_seq s 0#16, setSeq_params s 0#16, post_pending (s.setSeq 0#16) .resetTaken,
    (results_post_reset (s.setSeq 0#16)).trans (results_setSeq s 0#16)⟩

end Sys2Proof.Machine

/-! What a step does with the next input, and the claims about the encodings (spec 20_memory.md section 6,
30_encoding.md). -/

namespace Sys2Proof.Machine

/-- With nothing pending a step changes nothing (R19, R103). -/
theorem step_of_pending_nil {s : State} (hp : s.pending = []) : step s = .next s := by
  rw [step, fetch, hp]

/-- A signal that encodes an operation is taken and performed (R34). -/
theorem step_of_decode_ok {s : State} {sig : Signal} {rest : List Signal} {i : Instr} (hp : s.pending = sig :: rest)
    (hd : decode sig = .ok i) : step s = exec i (s.withPending rest) := by
  simp only [step, fetch, hp, hd]

/-- A reset input that is not asserted is taken, and nothing else happens. -/
theorem step_of_resetNotAsserted {s : State} {sig : Signal} {rest : List Signal} (hp : s.pending = sig :: rest)
    (hd : decode sig = .error .resetNotAsserted) : step s = .next (s.withPending rest) := by
  simp only [step, fetch, hp, hd]

/-- Any other signal that encodes no operation is refused by name. -/
theorem step_of_decode_error {s : State} {sig : Signal} {rest : List Signal} {e : DecodeError}
    (hp : s.pending = sig :: rest) (hd : decode sig = .error e) (he : e ≠ .resetNotAsserted) :
    step s = .refused (.undecodable e) := by
  cases e with
  | resetNotAsserted => exact absurd rfl he
  | headerTypeBits | channelOfEmptyFrame | lengthOfShortFrame => simp only [step, fetch, hp, hd]

/-- Settles O36: the four clauses are the four ways a step can go. -/
theorem stepPerformsTheNextInput : Obligations.StepPerformsTheNextInput :=
  ⟨fun _ => step_of_pending_nil, fun _ _ _ _ => step_of_decode_ok, fun _ _ _ => step_of_resetNotAsserted,
    fun _ _ _ _ => step_of_decode_error⟩

/-- A word of the table that the decoder reads stands for a signal of that operation. -/
theorem decodeTableWord_eq_some {nbits w : Nat} {i : Instr} (h : decodeTableWord nbits w = some i) :
    ∃ sig, signalOfTableWord nbits w = some sig ∧ decode sig = .ok i := by
  rw [decodeTableWord] at h
  cases hs : signalOfTableWord nbits w with
  | none => simp [hs] at h
  | some sig =>
    cases hd : decode sig with
    | error e => simp [hs, hd] at h
    | ok j =>
      simp only [hs, hd, Option.some.injEq] at h
      exact ⟨sig, rfl, h ▸ hd⟩

/-- Settles O37: the word's signal is put first, so the next step takes it and performs what it decodes to. -/
theorem presentedTableWordRunsAtOnce : Obligations.PresentedTableWordRunsAtOnce := by
  intro s nbits w i h
  obtain ⟨sig, hs, hd⟩ := decodeTableWord_eq_some h
  have hw : s.withFetchWord nbits w = s.withPending (sig :: s.pending) := by rw [State.withFetchWord, hs]
  rw [hw, step_of_decode_ok (withPending_pending s _) hd, withPending_withPending, pending_eq, withPending_same]

/-- An ENCODE_HEADER pattern is read as its length field (R61). -/
theorem decode_hdrEncode_header48 (c : Byte) (l n : Word16) :
    decode (.hdrEncode (header48 c Config.MSG_DATA l n)) = .ok (.encodeHeader l.toNat) := by
  rw [decode, decodeHeaderPattern, if_pos (headerType_header48 _ _ _ _), headerLength_header48]

/-- Settles O38, by cases on the operation: only ENCODE_HEADER and the FRAME rows pack their operands into fields, and
those read back because a well-formed length fits 16 bits. -/
theorem decodeOfEncodeGivesTheOperationBack : Obligations.DecodeOfEncodeGivesTheOperationBack := by
  intro i hwf
  cases i with
  | encode IN | decode IN | reset | seqAdvance v => rfl
  | encodeHeader L =>
    have hL : L ≤ 65535 := of_decide_eq_true hwf
    rw [encode, decode_hdrEncode_header48, BitVec.toNat_ofNat, Nat.mod_eq_of_lt (by omega)]
  | decodeChannel F => exact if_pos (of_decide_eq_true hwf)
  | decodeLength F => exact if_pos (of_decide_eq_true hwf)
  | frameA2B n payload => exact congrArg Except.ok ((decodeReceived_frameBytes n (of_decide_eq_true hwf)).1 rfl)
  | frameB2A n payload => exact congrArg Except.ok ((decodeReceived_frameBytes n (of_decide_eq_true hwf)).2 rfl)

/-- Settles O39: each conjunct runs the decoder on one written-out word. -/
theorem specWordsDecode : Obligations.SpecWordsDecode :=
  ⟨rfl, rfl, rfl, rfl, rfl, rfl, rfl, rfl, rfl⟩

/-- The six bytes of a header read from its fields (R44). -/
theorem bytesOfHeader48_header48 (c m : Byte) (l n : Word16) :
    bytesOfHeader48 (header48 c m l n) = [c, m, hiByte l, loByte l, hiByte n, loByte n] := by
  simp only [bytesOfHeader48, headerChannel_header48, headerType_header48, headerLength_header48, headerSeq_header48]

/-- A frame whose payload length is a 16-bit number has that number's bytes at offsets 2 and 3. -/
theorem frameBytes_of_length {payload : Bytes} {l : Word16} (h : payload.length = l.toNat) (c : Byte) (n : Word16) :
    frameBytes c n payload = [c, Config.MSG_DATA, hiByte l, loByte l, hiByte n, loByte n] ++ payload := by
  obtain ⟨hhi, hlo⟩ := lenBytes_of_be16 (h.trans (congrArg BitVec.toNat (be16_hi_lo l).symm))
  rw [frameBytes, headerBytes, hhi, hlo]

/-- A table word of the FRAME rows stands for that frame, with a payload of zeros. -/
theorem signalOfHeaderWord_frame {c : Byte} (hc : c = Config.CH_A2B ∨ c = Config.CH_B2A) (l n : Word16) :
    signalOfHeaderWord (header48 c Config.MSG_DATA l n) =
      .received (frameBytes c n (List.replicate l.toNat 0x00#8)) := by
  rw [signalOfHeaderWord, if_pos (headerType_header48 _ _ _ _), headerChannel_header48, if_pos hc,
    bytesOfHeader48_header48, headerLength_header48, frameBytes_of_length List.length_replicate]

/-- A table word with the data message type and no frame's channel stands for ENCODE_HEADER. -/
theorem signalOfHeaderWord_encodeHeader {c : Byte} (hc : ¬ (c = Config.CH_A2B ∨ c = Config.CH_B2A)) (l n : Word16) :
    signalOfHeaderWord (header48 c Config.MSG_DATA l n) = .hdrEncode (header48 c Config.MSG_DATA l n) := by
  rw [signalOfHeaderWord, if_pos (headerType_header48 _ _ _ _), headerChannel_header48, if_neg hc]

/-- A table word with another message type stands for DECODE_LENGTH of its bytes. -/
theorem signalOfHeaderWord_decodeLength {m : Byte} (hm : m ≠ Config.MSG_DATA) (c : Byte) (l n : Word16) :
    signalOfHeaderWord (header48 c m l n) = .hdrLength [c, m, hiByte l, loByte l, hiByte n, loByte n] := by
  rw [signalOfHeaderWord, headerType_header48, if_neg hm, bytesOfHeader48_header48]

/-- A 48-bit table word is read as the header whose fields it has. -/
theorem decodeTableWord_header48 (c m : Byte) (l n : Word16) {w : Nat} {i : Instr}
    (hw : w = (c.toNat * 256 + m.toNat) * 4294967296 + l.toNat * 65536 + n.toNat)
    (hd : decode (signalOfHeaderWord (header48 c m l n)) = .ok i) : decodeTableWord 48 w = some i := by
  have hs : signalOfTableWord 48 w = some (signalOfHeaderWord (BitVec.ofNat 48 w)) := rfl
  have hh : BitVec.ofNat 48 w = header48 c m l n := ofNat_eq_header48 c m l n (by rw [hw]; ring)
  simp only [decodeTableWord, hs, hh, hd]

/-- Settles O40: each word is the header of its row's channel and message type, and the rows are told apart in the
order FRAME, ENCODE_HEADER, DECODE_LENGTH. -/
theorem tableHeaderWordsDecode : Obligations.TableHeaderWordsDecode := by
  intro l n
  have hl : (List.replicate l.toNat 0x00#8).length ≤ 65535 := by
    have := l.isLt
    rw [List.length_replicate]
    omega
  refine ⟨decodeTableWord_header48 Config.CH_A2B Config.MSG_DATA l n (by simp) ?_,
    decodeTableWord_header48 Config.CH_B2A Config.MSG_DATA l n (by simp) ?_,
    decodeTableWord_header48 0x00#8 Config.MSG_DATA l n (by simp) ?_,
    decodeTableWord_header48 0x00#8 0x00#8 l n (by simp) ?_⟩
  · rw [signalOfHeaderWord_frame (.inl rfl), decode, (decodeReceived_frameBytes n hl).1 rfl]
  · rw [signalOfHeaderWord_frame (.inr rfl), decode, (decodeReceived_frameBytes n hl).2 rfl]
  · rw [signalOfHeaderWord_encodeHeader (by decide), decode_hdrEncode_header48]
  · rw [signalOfHeaderWord_decodeLength (by decide)]
    rfl

/-- Settles O11: writing then reading, the bytes written, the number read, and the two fields of a header, whose length
bytes are those of the 16-bit number. -/
theorem sixteenBitFieldsReadBack : Obligations.SixteenBitFieldsReadBack := by
  refine ⟨be16_hi_lo, fun v => ⟨hiByte_toNat v, loByte_toNat v⟩, be16_toNat, fun c l n => ?_⟩
  obtain ⟨hhi, hlo⟩ := lenBytes_of_be16 (congrArg BitVec.toNat (be16_hi_lo l).symm)
  rw [headerBytes, hhi, hlo]
  exact ⟨rfl, rfl, rfl, rfl⟩

end Sys2Proof.Machine

/-! How an operation and a step extend the transcript, and the claims about its numbering
(spec 41_sequence_counter.md). -/

namespace Sys2Proof.Machine

/-- The value of `SEQ` after a transcript is found piece by piece. -/
theorem seqAfter_append (b : Word16) (later earlier : List Event) :
    seqAfter b (later ++ earlier) = seqAfter (seqAfter b earlier) later := by
  induction later with
  | nil => rfl
  | cons e l ih => simp only [List.cons_append, seqAfter, ih]

/-- A transcript is numbered when its beginning is and the rest is from where that leaves `SEQ`. -/
theorem numbered_append_eq (b : Word16) (later earlier : List Event) :
    numbered b (later ++ earlier) = (numbered b earlier && numbered (seqAfter b earlier) later) := by
  induction later with
  | nil => simp [numbered]
  | cons e l ih => simp only [List.cons_append, numbered, ih, seqAfter_append, Bool.and_assoc]

/-- An event that is no reset and carries no header leaves `SEQ` where it was. -/
theorem seqAfter_cons_of_not_built {e : Event} (hr : e ≠ .resetTaken) (hb : e.built? = none) (b : Word16)
    (earlier : List Event) : seqAfter b (e :: earlier) = seqAfter b earlier := by
  simp [seqAfter, hr, hb]

/-- An event that carries a header moves `SEQ` on by one. -/
theorem seqAfter_cons_of_built {e : Event} {out : Bytes} (hb : e.built? = some out) (b : Word16)
    (earlier : List Event) : seqAfter b (e :: earlier) = seqAfter b earlier + 1#16 := by
  have hr : e ≠ .resetTaken := by
    rintro rfl
    cases hb
  simp [seqAfter, hr, hb]

/-- In a numbered transcript the last header carries what the events before it left in `SEQ` (R69). -/
theorem carriedSeq_of_numbered_cons {b : Word16} {e : Event} {earlier : List Event} {out : Bytes}
    (hb : e.built? = some out) (h : numbered b (e :: earlier) = true) :
    carriedSeq out = some (seqAfter b earlier) := by
  simp only [numbered, hb, Bool.and_eq_true, beq_iff_eq] at h
  exact h.2

/-- `t` comes after `s` with the events `new` handed out: the parameters are those of `s`, and the new part of the
transcript is numbered from the `SEQ` of `s` and gives the `SEQ` of `t`. -/
structure ExtendsBy (s t : State) (new : List Event) : Prop where
  params : t.params = s.params
  transcript : t.transcript = new ++ s.transcript
  seq : t.seq = seqAfter s.seq new
  numbered : numbered s.seq new = true

theorem ExtendsBy.refl (s : State) : ExtendsBy s s [] := ⟨rfl, rfl, rfl, rfl⟩

theorem ExtendsBy.trans {s t u : State} {l m : List Event} (hst : ExtendsBy s t l) (htu : ExtendsBy t u m) :
    ExtendsBy s u (m ++ l) where
  params := htu.params.trans hst.params
  transcript := by rw [htu.transcript, hst.transcript, List.append_assoc]
  seq := by rw [htu.seq, hst.seq, seqAfter_append]
  numbered := by rw [numbered_append_eq, hst.numbered, ← hst.seq, htu.numbered, Bool.and_self]

/-- Taking an input hands out nothing. -/
theorem extendsBy_withPending (s : State) (l : List Signal) : ExtendsBy s (s.withPending l) [] := ⟨rfl, rfl, rfl, rfl⟩

/-- Handing out an event that is no reset and carries no header leaves `SEQ`. -/
theorem extendsBy_post {e : Event} (hr : e ≠ .resetTaken) (hb : e.built? = none) (s : State) :
    ExtendsBy s (s.post e) [e] where
  params := rfl
  transcript := rfl
  seq := (seqAfter_cons_of_not_built hr hb s.seq []).symm
  numbered := by simp [Machine.numbered, hb]

/-- Handing out a header that carries the old `SEQ` goes with moving `SEQ` on by one (R69). -/
theorem extendsBy_post_built {s : State} {e : Event} {out : Bytes} (hb : e.built? = some out)
    (hc : carriedSeq out = some s.seq) : ExtendsBy s ((s.setSeq (s.seq + 1#16)).post e) [e] where
  params := rfl
  transcript := rfl
  seq := (seqAfter_cons_of_built hb s.seq []).symm
  numbered := by simpa [Machine.numbered, hb, seqAfter] using hc

/-- A reset clears `SEQ` and leaves its mark. -/
theorem extendsBy_reset (s : State) : ExtendsBy s ((s.setSeq 0#16).post .resetTaken) [.resetTaken] :=
  ⟨rfl, rfl, rfl, rfl⟩

/-- ENCODE hands out its result alone: the frame that carries the old `SEQ`, or an error with `SEQ` as it was. -/
theorem extendsBy_encode (s : State) (IN : Bytes) :
    ExtendsBy s ((s.setSeq (encodeFrame s.params s.seq IN).2).post (.result .encode (encodeFrame s.params s.seq IN).1))
      [.result .encode (encodeFrame s.params s.seq IN).1] := by
  obtain ⟨-, he⟩ | ⟨-, he⟩ := encodeFrame_cases s.params s.seq IN <;> rw [he]
  · exact extendsBy_post_built rfl (carriedSeq_frame _ _ _)
  · exact extendsBy_post (by nofun) rfl s

/-- DECODE hands out its result alone and leaves `SEQ` (R72). -/
theorem extendsBy_decode (s : State) (r : Result) : ExtendsBy s (s.post (.result .decode r)) [.result .decode r] :=
  extendsBy_post (by nofun) rfl s

/-- Every operation that goes on hands out one event, numbered on from `SEQ` (R69, R73). -/
theorem exec_extendsBy {i : Instr} {s t : State} (h : exec i s = .next t) : ∃ e, ExtendsBy s t [e] := by
  obtain ⟨IN, -, rfl⟩ | ⟨IN, -, rfl⟩ | ⟨-, rfl⟩ | ⟨L, -, -, rfl⟩ | ⟨F, hF, -, rfl⟩ | ⟨F, hF, -, rfl⟩ | ⟨v, -, rfl⟩ :=
    exec_next_cases h
  · exact ⟨_, extendsBy_encode s IN⟩
  · exact ⟨_, extendsBy_decode s _⟩
  · exact ⟨_, extendsBy_reset s⟩
  · exact ⟨_, extendsBy_post_built rfl (carriedSeq_header _ _ _)⟩
  · exact ⟨_, extendsBy_post (by nofun) rfl s⟩
  · exact ⟨_, extendsBy_post (by nofun) rfl s⟩
  · exact ⟨_, extendsBy_post (by nofun) rfl s⟩

/-- Every step that goes on hands out at most one event, numbered on from `SEQ`. -/
theorem step_extendsBy {s t : State} (h : step s = .next t) : ∃ new, new.length ≤ 1 ∧ ExtendsBy s t new := by
  obtain ⟨-, rfl⟩ | ⟨sig, rest, -, ⟨-, rfl⟩ | ⟨i, -, he⟩⟩ := step_next_cases h
  · exact ⟨[], Nat.zero_le 1, .refl _⟩
  · exact ⟨[], Nat.zero_le 1, extendsBy_withPending s rest⟩
  · obtain ⟨e, hx⟩ := exec_extendsBy he
    exact ⟨[e], Nat.le_refl 1, (extendsBy_withPending s rest).trans hx⟩

/-- Settles O5: what a step does to the parameters and the transcript is what `step_extendsBy` says of them. -/
theorem stepNeverChangesParameters : Obligations.StepNeverChangesParameters := by
  intro s t h
  obtain ⟨new, hlen, hx⟩ := step_extendsBy h
  exact ⟨hx.params, new, hlen, hx.transcript⟩

/-- A numbered state is one whose `SEQ` and transcript hang together from `b`. -/
theorem numbered_state_iff {b : Word16} {s : State} :
    s.Numbered b = true ↔ s.seq = seqAfter b s.transcript ∧ numbered b s.transcript = true := by
  rw [State.Numbered, Bool.and_eq_true, beq_iff_eq]

/-- What is numbered on from a numbered state is numbered. -/
theorem ExtendsBy.keeps_numbered {b : Word16} {s t : State} {new : List Event} (hx : ExtendsBy s t new)
    (hs : s.Numbered b = true) : t.Numbered b = true := by
  obtain ⟨hseq, hnum⟩ := numbered_state_iff.mp hs
  refine numbered_state_iff.mpr ⟨?_, ?_⟩
  · rw [hx.seq, hx.transcript, hseq, seqAfter_append]
  · rw [hx.transcript, numbered_append_eq, hnum, ← hseq, hx.numbered, Bool.and_self]

/-- Settles O15: a step numbers its event on from `SEQ`, which in a numbered state is what the transcript gives. -/
theorem stepKeepsTheNumbering : Obligations.StepKeepsTheNumbering := by
  intro b s t hs h
  obtain ⟨new, -, hx⟩ := step_extendsBy h
  exact hx.keeps_numbered hs

/-- Events that are no reset and carry no header leave `SEQ` where it was. -/
theorem seqAfter_append_of_not_built {between : List Event}
    (h : ∀ e ∈ between, e ≠ .resetTaken ∧ e.built? = none) (b : Word16) (earlier : List Event) :
    seqAfter b (between ++ earlier) = seqAfter b earlier := by
  induction between with
  | nil => rfl
  | cons e l ih =>
    obtain ⟨⟨hr, hb⟩, hl⟩ := List.forall_mem_cons.mp h
    rw [List.cons_append, seqAfter_cons_of_not_built hr hb, ih hl]

/-- Settles O16: the earlier frame carries the `SEQ` before it and moves it on by one; nothing between them touches it;
so the later frame carries that number plus one. -/
theorem consecutiveFramesCarryConsecutiveNumbers : Obligations.ConsecutiveFramesCarryConsecutiveNumbers := by
  intro b s later between earlier f g hs htr hbetween
  have hnum := (numbered_state_iff.mp hs).2
  rw [htr] at hnum
  have hg := carriedSeq_of_numbered_cons rfl (numbered_append later hnum)
  have hf := carriedSeq_of_numbered_cons rfl
    (numbered_append between (numbered_append [_] (numbered_append later hnum)))
  rw [seqAfter_append_of_not_built hbetween, seqAfter_cons_of_built rfl] at hg
  refine ⟨_, _, hf, hg, fun hlt => ?_, fun hmax => ?_⟩
  · rw [toNat_add_one_eq_ite, if_neg (by omega)]
  · rw [toNat_add_one_eq_ite, if_pos (by omega)]

/-- `n` advances add `n` modulo 65536 (R68). -/
theorem seqAdvance_iterate (v : Word16) (n : Nat) : seqAdvance^[n] v = v + BitVec.ofNat 16 n := by
  induction n with
  | zero => simp
  | succ n ih => rw [Function.iterate_succ_apply', ih, seqAdvance_eq, BitVec.add_assoc, BitVec.ofNat_add]

/-- Settles O13: `n` advances add `n` modulo 65536, which changes nothing exactly when 65536 divides `n`. -/
theorem seqAdvanceIsOneCycleOf65536 : Obligations.SeqAdvanceIsOneCycleOf65536 := by
  intro v n
  have hzero : BitVec.ofNat 16 n = 0 ↔ n % 65536 = 0 := BitVec.toNat_inj.symm
  rw [seqAdvance_iterate, add_eq_left, hzero, Nat.dvd_iff_mod_eq_zero]

end Sys2Proof.Machine

/-! Steps over inputs a caller can present, and the claims about runs and results
(spec 70_reset_and_hazards.md section 4, 60_exceptions.md section 1). -/

namespace Sys2Proof.Machine

/-- Performing what received bytes are read as is performing DECODE on them: a FRAME reading decodes the frame's bytes,
which are the bytes received, and any other reading is DECODE. -/
theorem exec_decodeReceived (bytes : Bytes) (s : State) :
    exec (decodeReceived bytes) s = exec (.decode bytes) s := by
  obtain hd | ⟨n, payload, hp, ⟨hd, hb⟩ | ⟨hd, hb⟩⟩ := decodeReceived_spec bytes
  · rw [hd]
  · rw [hd, exec_frameA2B hp, exec_decode, hb]
  · rw [hd, exec_frameB2A hp, exec_decode, hb]

/-- Settles O31: the decoder reads every received buffer, as `decodeReceived` has it. -/
theorem receivedBytesAreJudgedByDecode : Obligations.ReceivedBytesAreJudgedByDecode := by
  intro s bytes i h
  cases h
  exact exec_decodeReceived bytes s

/-- All that a step whose next input is a command can do: it takes the command and hands out its one result. -/
theorem step_of_isCommand {s : State} {sig : Signal} {rest : List Signal} (hp : s.pending = sig :: rest)
    (hc : isCommand sig = true) : ∃ t op r, step s = .next t ∧ t.pending = rest ∧
      ExtendsBy s t [.result op r] := by
  have taken := extendsBy_withPending s rest
  cases sig with
  | cmd op IN =>
    by_cases hop : op = 0#1
    · rw [step_of_decode_ok (i := .encode IN) hp (by rw [decode, if_pos hop])]
      exact ⟨_, _, _, exec_encode _ _, rfl, taken.trans (extendsBy_encode _ IN)⟩
    · rw [step_of_decode_ok (i := .decode IN) hp (by rw [decode, if_neg hop])]
      exact ⟨_, _, _, exec_decode _ _, rfl, taken.trans (extendsBy_decode _ _)⟩
  | received bytes =>
    rw [step_of_decode_ok hp rfl, exec_decodeReceived]
    exact ⟨_, _, _, exec_decode _ _, rfl, taken.trans (extendsBy_decode _ _)⟩
  | rst _ | hdrEncode _ | hdrChannel _ | hdrLength _ | fn _ => cases hc

/-- A step whose next input is the reset input always goes on and takes it. -/
theorem step_of_rst {s : State} {line : BitVec 1} {rest : List Signal} (hp : s.pending = .rst line :: rest) :
    ∃ t, step s = .next t ∧ t.pending = rest := by
  by_cases hl : line = 1#1
  · rw [step_of_decode_ok (i := .reset) hp (by rw [decode, if_pos hl])]
    exact ⟨_, exec_reset _, rfl⟩
  · rw [step_of_resetNotAsserted hp (by rw [decode, if_neg hl])]
    exact ⟨_, rfl, rfl⟩

/-- An input a caller can present is a command or the reset input. -/
theorem isCommand_or_rst {sig : Signal} (h : callerMayPresent sig = true) :
    isCommand sig = true ∨ ∃ line, sig = .rst line := by
  obtain ⟨op, IN, rfl⟩ | hrst | ⟨bytes, rfl⟩ := callerMayPresent_cases h
  · exact .inl rfl
  · exact .inr hrst
  · exact .inl rfl

theorem callerOnly_cons {s : State} {sig : Signal} {rest : List Signal} (hp : s.pending = sig :: rest) :
    s.CallerOnly = true ↔ callerMayPresent sig = true ∧ rest.all callerMayPresent = true := by
  rw [State.CallerOnly, hp, List.all_cons, Bool.and_eq_true]

/-- Over inputs a caller can present a step always goes on and takes the next input (R117). -/
theorem step_of_callerOnly {s : State} {sig : Signal} {rest : List Signal} (hp : s.pending = sig :: rest)
    (hc : s.CallerOnly = true) : ∃ t, step s = .next t ∧ t.pending = rest := by
  obtain hcmd | ⟨line, rfl⟩ := isCommand_or_rst ((callerOnly_cons hp).mp hc).1
  · obtain ⟨t, -, -, ht, hrest, -⟩ := step_of_isCommand hp hcmd
    exact ⟨t, ht, hrest⟩
  · exact step_of_rst hp

/-- An event that is a result stands newest among the results. -/
theorem ExtendsBy.results {s t : State} {op : Op} {r : Result} (hx : ExtendsBy s t [.result op r]) :
    t.results = (op, r) :: s.results := by
  rw [State.results, hx.transcript, State.results]
  rfl

/-- Settles O35, by cases on the pending inputs: the next is a command, whose step hands out its one result, or the
reset input, which is taken. -/
theorem everyCommandEndsWithOneResult : Obligations.EveryCommandEndsWithOneResult := by
  intro s hc
  cases hp : s.pending with
  | nil => exact ⟨s, step_of_pending_nil hp, hc, nofun⟩
  | cons sig rest =>
    obtain ⟨t, ht, hrest⟩ := step_of_callerOnly hp hc
    refine ⟨t, ht, ?_, ?_⟩
    · rw [State.CallerOnly, hrest]
      exact ((callerOnly_cons hp).mp hc).2
    · rintro sig' rest' ⟨⟩
      refine ⟨hrest, fun hcmd => ?_⟩
      obtain ⟨t', op, r, ht', -, hx⟩ := step_of_isCommand hp hcmd
      cases ht.symm.trans ht'
      exact ⟨op, r, hx.results⟩

/-- A result is counted as a frame built exactly when it carries a header. -/
theorem framesBuilt_cons_result (op : Op) (r : Result) (l : List Event) :
    framesBuilt (.result op r :: l) =
      framesBuilt l + if (Event.result op r).built?.isSome then 1 else 0 := by
  obtain ⟨status, out⟩ := r
  rw [framesBuilt, List.countP_cons]
  cases op <;> cases status <;> rfl

/-- Over results alone `SEQ` moves on by the number of frames built (R74). -/
theorem seqAfter_toNat_of_results {l : List Event} (h : ∀ e ∈ l, ∃ op r, e = .result op r) (b : Word16) :
    (seqAfter b l).toNat = (b.toNat + framesBuilt l) % 65536 := by
  induction l with
  | nil =>
    have := b.isLt
    exact (Nat.mod_eq_of_lt this).symm
  | cons e l ih =>
    obtain ⟨⟨op, r, rfl⟩, hl⟩ := List.forall_mem_cons.mp h
    rw [framesBuilt_cons_result]
    cases hb : (Event.result op r).built? with
    | none => rw [seqAfter_cons_of_not_built (by nofun) hb, ih hl]; rfl
    | some out =>
      rw [seqAfter_cons_of_built hb, BitVec.toNat_add, ih hl, Option.isSome_some, if_pos rfl, ← Nat.add_assoc]
      exact Nat.mod_add_mod _ _ _

/-- An input a caller can present that is not the reset input is a command. -/
theorem isCommand_of_not_reset {sig : Signal} (hc : callerMayPresent sig = true) (hr : isResetInput sig = false) :
    isCommand sig = true := by
  obtain hcmd | ⟨line, rfl⟩ := isCommand_or_rst hc
  · exact hcmd
  · cases hr

theorem noResetPending_cons {s : State} {sig : Signal} {rest : List Signal} (hp : s.pending = sig :: rest) :
    s.NoResetPending = true ↔ isResetInput sig = false ∧ rest.all (fun sig => !isResetInput sig) = true := by
  rw [State.NoResetPending, hp, List.all_cons, Bool.and_eq_true, Bool.not_eq_true']

/-- Any run over commands completes, takes its inputs, and hands out results alone, numbered on from `SEQ`. -/
theorem run_of_commands (k : Nat) {s : State} (hc : s.CallerOnly = true) (hr : s.NoResetPending = true) :
    ∃ t new, Host.Core.run core k s = .next t ∧ t.pending = s.pending.drop k ∧ ExtendsBy s t new ∧
      ∀ e ∈ new, ∃ op r, e = .result op r := by
  induction k generalizing s with
  | zero => exact ⟨s, [], rfl, rfl, .refl s, nofun⟩
  | succ k ih =>
    cases hp : s.pending with
    | nil =>
      obtain ⟨t, new, hrun, hpend, hx, hres⟩ := ih hc hr
      rw [hp, List.drop_nil] at hpend
      exact ⟨t, new, (run_succ_of_step k (step_of_pending_nil hp)).trans hrun, hpend, hx, hres⟩
    | cons sig rest =>
      obtain ⟨hsig, hrest⟩ := (callerOnly_cons hp).mp hc
      obtain ⟨hsig', hrest'⟩ := (noResetPending_cons hp).mp hr
      obtain ⟨s₁, op, r, hstep, hp₁, hx₁⟩ := step_of_isCommand hp (isCommand_of_not_reset hsig hsig')
      obtain ⟨t, new, hrun, hpend, hx, hres⟩ := ih (s := s₁) (by rwa [State.CallerOnly, hp₁])
        (by rwa [State.NoResetPending, hp₁])
      refine ⟨t, new ++ [.result op r], (run_succ_of_step k hstep).trans hrun, ?_, hx₁.trans hx, ?_⟩
      · rw [hpend, hp₁, List.drop_succ_cons]
      · simpa [or_imp, forall_and] using hres

/-- Settles O17: the run's events are results numbered on from `SEQ`, and over results the number of frames built is
what `SEQ` has moved on by, at the end and before each frame. -/
theorem runsCompleteAndNumberEveryFrame : Obligations.RunsCompleteAndNumberEveryFrame := by
  intro k s hc hr
  obtain ⟨t, new, hrun, hpend, hx, hres⟩ := run_of_commands k hc hr
  refine ⟨t, new, hrun, hx.transcript, hx.params, hpend, ?_, ?_⟩
  · rw [hx.seq, seqAfter_toNat_of_results hres]
  · rintro later earlier out rfl
    have hearlier : ∀ e ∈ earlier, ∃ op r, e = .result op r := fun e he => hres e (by simp [he])
    exact ⟨_, carriedSeq_of_numbered_cons rfl (numbered_append later hx.numbered),
      seqAfter_toNat_of_results hearlier s.seq⟩

end Sys2Proof.Machine

/-! What DECODE gives for each operand and for a frame of either end, and the claims about frames between two ends
(spec 30_encoding.md, 42_packet_codec.md). -/

namespace Sys2Proof.Machine

/-- The length a header declares, given by its value under each length mode (R51). -/
theorem eq_declared {m : LenMode} {hi lo : Byte} {L : Nat} (h16 : m = .len16 → L = hi.toNat * 256 + lo.toNat)
    (h8 : m = .len8 → L = lo.toNat) : L = declared m hi lo := by
  cases m with
  | len16 => exact h16 rfl
  | len8 => exact h8 rfl

/-- Settles O9: four bytes meet the precondition of DECODE_LENGTH, which hands out the declared length. -/
theorem decodeLengthReadsTheDeclaredLength : Obligations.DecodeLengthReadsTheDeclaredLength := by
  intro s b0 b1 hi lo rest
  have long : 4 ≤ (b0 :: b1 :: hi :: lo :: rest).length := Nat.le_add_left 4 rest.length
  refine ⟨_, _, exec_decodeLength long s, ⟨rfl, rfl, rfl⟩, rfl, fun h16 => ?_, fun h8 => ?_⟩
  · rw [decodeLength_toNat, h16, declared]
  · rw [decodeLength_toNat, h8, declared]

/-- Settles O21: `r` is what `decodeFrame` gives, which is said for each of the four kinds of operand. -/
theorem decodeResultForEveryOperand : Obligations.DecodeResultForEveryOperand := by
  intro s IN
  obtain ⟨t, ht, hy, hseq⟩ := exec_decode_yields IN s
  refine ⟨t, _, ht, hy, hseq, ?empty, ?wrongChannel, ?shortHeader, ?whole⟩
  case empty =>
    rintro rfl
    exact decodeFrame_nil _
  case wrongChannel =>
    rintro c rest rfl hc
    exact decodeFrame_wrongChannel _ rest hc
  case shortHeader =>
    rintro rest rfl hlen
    exact decodeFrame_shortHeader _ (Nat.lt_of_succ_lt_succ hlen)
  case whole =>
    rintro m hi lo s1 s0 body rfl L h16 h8
    obtain rfl := eq_declared h16 h8
    simp only [List.length_cons, decodeFrame_whole]
    refine ⟨fun hshort => if_neg (by omega), fun hlong => ?_⟩
    have hle : declared s.params.lenMode hi lo ≤ body.length := by omega
    rw [if_pos hle]
    exact ⟨rfl, List.length_take_of_le hle⟩

/-- The message type and the sequence number have no part in what DECODE gives (R54, R56). -/
theorem decodeFrame_typeAndSeq (p : Params) (m m' hi lo s1 s1' s0 s0' : Byte) (body : Bytes) :
    decodeFrame p (rxChannel p.role :: m' :: hi :: lo :: s1' :: s0' :: body) =
      decodeFrame p (rxChannel p.role :: m :: hi :: lo :: s1 :: s0 :: body) := by
  rw [decodeFrame_whole, decodeFrame_whole]

/-- A whole header with the right channel is never an unexpected frame (R90). -/
theorem decodeFrame_whole_status_ne (p : Params) (m hi lo s1 s0 : Byte) (body : Bytes) :
    (decodeFrame p (rxChannel p.role :: m :: hi :: lo :: s1 :: s0 :: body)).status ≠ .unexpectedFrame := by
  rw [decodeFrame_whole]
  split <;> exact nofun

/-- Settles O23: the result depends on the declared length and the body alone. -/
theorem decodeIgnoresTypeAndSequenceBytes : Obligations.DecodeIgnoresTypeAndSequenceBytes := by
  intro s m m' hi lo s1 s1' s0 s0' body
  obtain ⟨t, ht, hy, -⟩ := exec_decode_yields (rxChannel s.params.role :: m :: hi :: lo :: s1 :: s0 :: body) s
  obtain ⟨t', ht', hy', -⟩ := exec_decode_yields (rxChannel s.params.role :: m' :: hi :: lo :: s1' :: s0' :: body) s
  rw [decodeFrame_typeAndSeq _ m m' hi lo s1 s1' s0 s0'] at hy'
  exact ⟨t, t', _, ht, ht', hy, hy', decodeFrame_whole_status_ne _ _ _ _ _ _ _⟩

/-- Bytes after the payload do not change what DECODE gives (R83). -/
theorem decodeFrame_append_of_ok {p : Params} {IN out : Bytes} (h : decodeFrame p IN = { status := .ok, out := out })
    (more : Bytes) : decodeFrame p (IN ++ more) = { status := .ok, out := out } := by
  obtain ⟨m, hi, lo, s1, s0, body, rfl, hle, rfl⟩ := decodeFrame_eq_ok h
  simp only [List.cons_append, decodeFrame_whole, List.length_append]
  rw [if_pos (by omega), List.take_append_of_le_length hle, returnOk]

/-- Settles O25: the payload lies within the operand, so what follows the operand is not read. -/
theorem decodeIgnoresSurplusBytes : Obligations.DecodeIgnoresSurplusBytes := by
  intro s t IN more p h htr
  obtain ⟨t', ht', hy, -⟩ := exec_decode_yields (IN ++ more) s
  rw [decodeFrame_append_of_ok (decodeFrame_of_exec_decode h htr)] at hy
  exact ⟨t', ht', hy⟩

/-- The two ends of a link: what one emits the other accepts (R6). -/
theorem txChannel_eq_rxChannel {a b : Role} (h : a ≠ b) : txChannel a = rxChannel b :=
  match a, b, h with
  | .A, .B, _ | .B, .A, _ => rfl
  | .A, .A, h | .B, .B, h => absurd rfl h

/-- The length bytes of a payload within the limit declare its length (R49, R51). -/
theorem declared_of_le_maxPayload {m : LenMode} {L : Nat} (h : L ≤ maxPayload m) :
    declared m (lenHi L) (lenLo L) = L := by
  cases m with
  | len16 => rw [declared, ← be16_toNat, be16_len h]
  | len8 => rw [declared, lenLo_toNat]; exact Nat.mod_eq_of_lt (Nat.lt_succ_of_le h)

/-- A frame with the inbound channel decodes to as much of its payload as its length bytes declare. -/
theorem decodeFrame_frame {p : Params} {c : Byte} {payload : Bytes} (hc : c = rxChannel p.role) (n : Word16)
    (hle : declared p.lenMode (lenHi payload.length) (lenLo payload.length) ≤ payload.length) :
    decodeFrame p (frameBytes c n payload) =
      { status := .ok, out := payload.take (declared p.lenMode (lenHi payload.length) (lenLo payload.length)) } := by
  subst hc
  exact (decodeFrame_whole _ _ _ _ _ _ _).trans (if_pos hle)

/-- A frame of a payload within the receiver's limit decodes to that payload (R86). -/
theorem decodeFrame_frame_fits {p : Params} {c : Byte} {payload : Bytes} (hc : c = rxChannel p.role) (n : Word16)
    (h : payload.length ≤ maxPayload p.lenMode) :
    decodeFrame p (frameBytes c n payload) = { status := .ok, out := payload } := by
  have hd := declared_of_le_maxPayload h
  rw [decodeFrame_frame hc n hd.le, hd, List.take_length]

/-- Under LEN8 a frame decodes to as much of its payload as the low length byte says (R113). -/
theorem decodeFrame_frame_len8 {p : Params} {c : Byte} {payload : Bytes} (hc : c = rxChannel p.role) (n : Word16)
    (h8 : p.lenMode = .len8) : decodeFrame p (frameBytes c n payload) =
      { status := .ok, out := payload.take (payload.length % 256) } := by
  have hd : declared p.lenMode (lenHi payload.length) (lenLo payload.length) = payload.length % 256 := by
    rw [h8, declared_len8, lenLo_toNat]
  rw [decodeFrame_frame hc n (hd.trans_le (Nat.mod_le _ _)), hd]

/-- A frame of another channel is rejected whole (R52). -/
theorem decodeFrame_frame_wrongChannel {p : Params} {c : Byte} (hc : c ≠ rxChannel p.role) (n : Word16)
    (payload : Bytes) : decodeFrame p (frameBytes c n payload) =
      { status := .unexpectedFrame, out := frameBytes c n payload } :=
  decodeFrame_wrongChannel p _ hc

/-- Settles O28: the frame carries the sender's channel, which the opposite end accepts and the sender does not. -/
theorem roundTripBetweenOppositeEnds : Obligations.RoundTripBetweenOppositeEnds := by
  intro x y p hrole hmode hfits
  obtain ⟨x', hx, hyx⟩ := exec_encode_yields_frame hfits
  obtain ⟨y', hy, hyy, -⟩ := exec_decode_yields (frameBytes (txChannel x.params.role) x.seq p) y
  obtain ⟨x'', hx', hyx', -⟩ := exec_decode_yields (frameBytes (txChannel x.params.role) x.seq p) x'
  rw [decodeFrame_frame_fits (txChannel_eq_rxChannel hrole) _ (hmode ▸ hfits)] at hyy
  rw [decodeFrame_frame_wrongChannel (by rw [hyx.1]; exact txChannel_ne_rxChannel _)] at hyx'
  exact ⟨_, x', y', x'', hx, hyx, hy, hyy, hx', hyx'⟩

/-- Settles O29: a LEN8 receiver reads the low length byte alone; what fits LEN8 fits LEN16. -/
theorem lengthModeMismatchReadsShort : Obligations.LengthModeMismatchReadsShort := by
  intro x y p hrole hmode hfits
  have hc := txChannel_eq_rxChannel hrole
  obtain ⟨x', hx, hyx⟩ := exec_encode_yields_frame hfits
  obtain ⟨y', hy, hyy, -⟩ := exec_decode_yields (frameBytes (txChannel x.params.role) x.seq p) y
  refine ⟨_, x', y', hx, hyx, hy, fun h16 => ?_, fun h8 => ?_⟩
  · have hy8 : y.params.lenMode = .len8 := by
      cases hm : y.params.lenMode with
      | len16 => exact absurd (h16.trans hm.symm) hmode
      | len8 => rfl
    rwa [decodeFrame_frame_len8 hc _ hy8] at hyy
  · have hy16 : y.params.lenMode = .len16 := by
      cases hm : y.params.lenMode with
      | len16 => rfl
      | len8 => exact absurd (h8.trans hm.symm) hmode
    have hfits' : p.length ≤ maxPayload y.params.lenMode := by
      rw [hy16]
      exact hfits.trans (maxPayload_le _)
    rwa [decodeFrame_frame_fits hc _ hfits'] at hyy

/-- Settles O30: each FRAME row decodes the frame's bytes; its channel is inbound at one role and not at the other. -/
theorem arrivingFrameIsDecoded : Obligations.ArrivingFrameIsDecoded := by
  intro s n p hp
  have hA (h : s.params.role = .A) : Config.CH_B2A = rxChannel s.params.role := by rw [h]; rfl
  have hB (h : s.params.role = .B) : Config.CH_A2B = rxChannel s.params.role := by rw [h]; rfl
  have hA' (h : s.params.role = .A) : Config.CH_A2B ≠ rxChannel s.params.role := by rw [h]; decide
  have hB' (h : s.params.role = .B) : Config.CH_B2A ≠ rxChannel s.params.role := by rw [h]; decide
  have hfits (h : s.params.lenMode = .len16) : p.length ≤ maxPayload s.params.lenMode := by rwa [h]
  exact ⟨_, _, _, _, lenHi p.length, lenLo p.length, hiByte n, loByte n,
    lenHi_toNat hp, lenLo_toNat _, hiByte_toNat n, loByte_toNat n,
    exec_frameA2B hp n s, ⟨rfl, rfl, rfl⟩, rfl, exec_frameB2A hp n s, ⟨rfl, rfl, rfl⟩, rfl,
    fun h => decodeFrame_frame_wrongChannel (hA' h) n p, fun h => decodeFrame_frame_wrongChannel (hB' h) n p,
    fun hm => ⟨fun h => decodeFrame_frame_fits (hB h) n (hfits hm),
      fun h => decodeFrame_frame_fits (hA h) n (hfits hm)⟩,
    fun hm => ⟨fun h => decodeFrame_frame_len8 (hB h) n hm, fun h => decodeFrame_frame_len8 (hA h) n hm⟩⟩

/-- Frames of one payload on one channel agree at every offset but 4 and 5 (R41, R47). -/
theorem frameBytes_getElem?_of_ne (c : Byte) (n n' : Word16) (payload : Bytes) {i : Nat} (h4 : i ≠ 4) (h5 : i ≠ 5) :
    (frameBytes c n payload)[i]? = (frameBytes c n' payload)[i]? := by
  match i with
  | 0 | 1 | 2 | 3 => rfl
  | 4 => exact absurd rfl h4
  | 5 => exact absurd rfl h5
  | _ + 6 => rfl

/-- A frame shows the sequence number it was built with, so equal frames were built with equal numbers. -/
theorem frameBytes_seq_inj {c : Byte} {n n' : Word16} {payload : Bytes} :
    n = n' ↔ frameBytes c n payload = frameBytes c n' payload := by
  refine ⟨fun h => h ▸ rfl, fun h => ?_⟩
  have hs := congrArg carriedSeq h
  rwa [carriedSeq_frame, carriedSeq_frame, Option.some.injEq] at hs

/-- Settles O20: the frames are those of one channel and one payload, and differ in the number they carry alone. -/
theorem framesOfOnePayloadDifferInTheSequenceOnly : Obligations.FramesOfOnePayloadDifferInTheSequenceOnly := by
  intro x y p hrole hx hy
  obtain ⟨x', hx', hyx⟩ := exec_encode_yields_frame hx
  obtain ⟨y', hy', hyy⟩ := exec_encode_yields_frame hy
  rw [← hrole] at hyy
  exact ⟨x', y', _, _, hx', hy', hyx, hyy, by rw [frameBytes_length, frameBytes_length],
    fun _ => frameBytes_getElem?_of_ne _ _ _ _, frameBytes_seq_inj⟩

/-- A header read as one big-endian number (R44). -/
theorem headerBytes_foldl (c : Byte) {L : Nat} (h : L ≤ 65535) (v : Word16) :
    (headerBytes c L v).foldl (fun n b => n * 256 + b.toNat) 0 =
      ((c.toNat * 256 + 0xA1) * 65536 + L) * 65536 + v.toNat := by
  have hmsg : Config.MSG_DATA.toNat = 0xA1 := rfl
  simp only [headerBytes, List.foldl_cons, List.foldl_nil, hmsg, lenHi_toNat h, lenLo_toNat, hiByte_toNat, loByte_toNat]
  omega

/-- Settles O7: the header as a number has the three fields side by side, and the length fits its 16 bits. -/
theorem headerFitsTheTablePattern : Obligations.HeaderFitsTheTablePattern := by
  intro s L hL
  have hL16 : L ≤ 65535 := hL.trans (maxPayload_le _)
  have hv := s.seq.isLt
  have hch : (txChannel s.params.role).toNat * 256 + 0xA1 = if s.params.role = .A then 0x30A1 else 0x31A1 := by
    cases s.params.role <;> rfl
  obtain ⟨t, ht, hy, -⟩ := exec_encodeHeader_yields hL
  refine ⟨t, _, ht, hy, headerBytes_length _ _ _, ?_⟩
  rw [headerBytes_foldl _ hL16, hch]
  split <;> omega

end Sys2Proof.Machine

/-! Which events an endpoint can hand out, and the claims about errors and their codes
(spec 60_exceptions.md). -/

namespace Sys2Proof.Machine

/-- A frame of this endpoint with a payload within the limit has a legal header (R78). -/
theorem builtHeader_frameBytes {p : Params} {payload : Bytes} (h : payload.length ≤ maxPayload p.lenMode)
    (v : Word16) : builtHeader p (frameBytes (txChannel p.role) v payload) payload.length = true := by
  simp [frameBytes, headerBytes, builtHeader, be16_len (h.trans (maxPayload_le _)), h]

/-- What ENCODE returns is among the combinations listed for it (R78, R88). -/
theorem encodeFrame_legal (p : Params) (seq : Word16) (IN : Bytes) :
    (encodeFrame p seq IN).1.legal p .encode = true := by
  obtain ⟨hfits, he⟩ | ⟨-, he⟩ := encodeFrame_cases p seq IN <;> rw [he]
  · have hlen : (frameBytes (txChannel p.role) seq IN).length - 6 = IN.length := by
      rw [frameBytes_length, Nat.add_sub_cancel_left]
    exact (congrArg _ hlen).trans (builtHeader_frameBytes hfits seq)
  · rfl

/-- What DECODE returns is among the combinations listed for it (R88, decision D9). -/
theorem decodeFrame_legal (p : Params) (IN : Bytes) : (decodeFrame p IN).legal p .decode = true := by
  obtain rfl | ⟨c, rest, hc, rfl⟩ | ⟨rest, hr, rfl⟩ | ⟨m, hi, lo, s1, s0, body, rfl⟩ := decode_operand_cases p IN
  · rfl
  · rw [decodeFrame_wrongChannel p rest hc]
    exact bne_iff_ne.mpr hc
  · rw [decodeFrame_shortHeader p hr]
    rfl
  · rw [decodeFrame_whole]
    split
    · exact decide_eq_true ((List.length_take_le _ _).trans (declared_le _ _ _))
    · rfl

/-- The header an internal ENCODE_HEADER returns within its precondition is legal (R61). -/
theorem header_legal {p : Params} {L : Nat} (h : L ≤ maxPayload p.lenMode) (v : Word16) :
    (Event.header (headerBytes (txChannel p.role) L v)).legal p = true := by
  simp [Event.legal, headerBytes, be16_len (h.trans (maxPayload_le _)), h]

/-- A declared length never exceeds the limit of the mode it was read in (R51, R63). -/
theorem decodeLength_le (m : LenMode) (F : Bytes) (long : 4 ≤ F.length) :
    (decodeLength m F long).toNat ≤ maxPayload m := by
  match F, long with
  | b0 :: b1 :: hi :: lo :: rest, long =>
    rw [decodeLength_toNat]
    exact declared_le m hi lo

/-- Handing out a legal event keeps every event legal. -/
theorem eventsLegal_post {s : State} {e : Event} (he : e.legal s.params = true) (hs : s.EventsLegal = true) :
    (s.post e).EventsLegal = true := by
  rw [State.EventsLegal, transcript_eq, post_transcript, List.all_cons, Bool.and_eq_true]
  exact ⟨he, hs⟩

/-- Every operation that goes on hands out a legal event. -/
theorem exec_keeps_eventsLegal {i : Instr} {s t : State} (hs : s.EventsLegal = true) (h : exec i s = .next t) :
    t.EventsLegal = true := by
  have hs' (v : Word16) : (s.setSeq v).EventsLegal = true := hs
  obtain ⟨IN, -, rfl⟩ | ⟨IN, -, rfl⟩ | ⟨-, rfl⟩ | ⟨L, -, hL, rfl⟩ | ⟨F, hF, -, rfl⟩ | ⟨F, long, -, rfl⟩ |
    ⟨v, -, rfl⟩ := exec_next_cases h
  · exact eventsLegal_post (encodeFrame_legal _ _ _) (hs' _)
  · exact eventsLegal_post (decodeFrame_legal _ _) hs
  · exact eventsLegal_post rfl (hs' _)
  · exact eventsLegal_post (header_legal hL _) (hs' _)
  · exact eventsLegal_post rfl hs
  · exact eventsLegal_post (decide_eq_true (decodeLength_le _ _ long)) hs
  · exact eventsLegal_post rfl hs

/-- Settles O33: a step that hands out an event performs an operation, whose event is legal; taking an input hands out
nothing. -/
theorem stepKeepsEveryResultLegal : Obligations.StepKeepsEveryResultLegal := by
  intro s t hs h
  obtain ⟨-, rfl⟩ | ⟨sig, rest, -, ⟨-, rfl⟩ | ⟨i, -, he⟩⟩ := step_next_cases h
  · exact hs
  · exact hs
  · exact exec_keeps_eventsLegal (s := s.withPending rest) hs he

/-- An operation that ends in an error does nothing but hand out that error (R95, R96). -/
theorem exec_error {i : Instr} {s t : State} {op : Op} {r : Result} (h : exec i s = .next t)
    (htr : t.transcript = .result op r :: s.transcript) (hr : r.status ≠ .ok) : t = s.post (.result op r) := by
  obtain ⟨IN, -, rfl⟩ | ⟨IN, -, rfl⟩ | ⟨-, rfl⟩ | ⟨L, -, hL, rfl⟩ | ⟨F, hF, -, rfl⟩ | ⟨F, long, -, rfl⟩ |
    ⟨v, -, rfl⟩ := exec_next_cases h
  · obtain ⟨-, he⟩ | ⟨-, he⟩ := encodeFrame_cases s.params s.seq IN <;> rw [he] at htr ⊢ <;> cases htr
    · exact absurd rfl hr
    · rfl
  · cases htr
    rfl
  all_goals cases htr

/-- A frame that arrived has a length field that says its payload's length (R43). -/
theorem length_le_of_receiveFrame_next {c : Byte} {n : Word16} {payload : Bytes} {s t : State}
    (h : receiveFrame c n payload s = .next t) : payload.length ≤ 65535 := by
  by_contra hlong
  rw [receiveFrame, if_neg hlong] at h
  cases h

/-- What an operation does depends on `SEQ` and the parameters alone: in a state that agrees in these it writes the same
`SEQ` and hands out the same event. -/
theorem exec_of_same_codec_params {j : Instr} {s t u : State} (hc : t.codec = s.codec) (hp : t.params = s.params)
    (h : exec j s = .next u) :
    ∃ v e, u = (s.setSeq v).post e ∧ exec j t = .next ((t.setSeq v).post e) := by
  obtain ⟨codec, params, port⟩ := t
  cases hc
  cases hp
  obtain ⟨IN, rfl, rfl⟩ | ⟨IN, hj, rfl⟩ | ⟨rfl, rfl⟩ | ⟨L, rfl, hL, rfl⟩ | ⟨F, hF, rfl, rfl⟩ | ⟨F, long, rfl, rfl⟩ |
    ⟨v, rfl, rfl⟩ := exec_next_cases h
  · exact ⟨_, _, rfl, exec_encode _ _⟩
  · refine ⟨s.seq, _, rfl, ?_⟩
    obtain rfl | ⟨n, p, rfl, rfl⟩ | ⟨n, p, rfl, rfl⟩ := hj
    · exact exec_decode _ _
    · exact exec_frameA2B (length_le_of_receiveFrame_next h) _ _
    · exact exec_frameB2A (length_le_of_receiveFrame_next h) _ _
  · exact ⟨_, _, rfl, exec_reset _⟩
  · exact ⟨_, _, rfl, exec_encodeHeader hL⟩
  · exact ⟨s.seq, _, rfl, exec_decodeChannel hF _⟩
  · exact ⟨s.seq, _, rfl, exec_decodeLength long _⟩
  · exact ⟨s.seq, _, rfl, exec_seqAdvance v _⟩

/-- Settles O34: an error changes the transcript alone, on which no operation depends. -/
theorem errorLeavesTheBlockAsItWas : Obligations.ErrorLeavesTheBlockAsItWas := by
  intro i s t op r h htr hr
  obtain rfl := exec_error h htr hr
  refine ⟨rfl, rfl, fun j u hu => ?_⟩
  obtain ⟨v, e, rfl, hj⟩ := exec_of_same_codec_params (s := s) (t := s.post (.result op r)) rfl rfl hu
  exact ⟨_, e, hj, rfl, ⟨rfl, rfl, rfl⟩, ⟨rfl, rfl, rfl⟩⟩

/-- No two statuses share a code (R89). -/
theorem status_eq_of_code_eq (a b : Status) : a.code = b.code → a = b := by
  cases a <;> cases b <;> decide

/-- Settles O32: the codes by definition, and that they differ. -/
theorem statusCodesAreTheFour : Obligations.StatusCodesAreTheFour :=
  ⟨rfl, rfl, rfl, rfl, status_eq_of_code_eq⟩

/-- Settles O10: each operation's own test fails. -/
theorem refusedOutsideThePrecondition : Obligations.RefusedOutsideThePrecondition :=
  ⟨fun _ _ h => dif_neg (Nat.not_le.mpr h), fun _ => rfl, fun _ _ h => dif_neg (Nat.not_le.mpr h),
    fun _ _ _ h => ⟨if_neg (Nat.not_le.mpr h), if_neg (Nat.not_le.mpr h)⟩⟩

/-- Settles O3: each value is one case of its selection. -/
theorem parametersSelectChannelsAndMaxPayload : Obligations.ParametersSelectChannelsAndMaxPayload :=
  ⟨rfl, rfl, rfl, rfl, rfl, rfl⟩

/-- Settles O2: the reset state's lists are empty, so each invariant computes to true. -/
theorem resetStateMeetsEveryInvariant : Obligations.ResetStateMeetsEveryInvariant :=
  ⟨rfl, rfl, rfl, rfl⟩

end Sys2Proof.Machine

/-! The written form of commands, and several endpoints side by side (spec 30_encoding.md section 6,
60_exceptions.md section 6). -/

namespace Sys2Proof.Machine

/-- An operand shown in hexadecimal, after a space, is read as its bytes and never as a count of copies (R60). -/
theorem readOperand_of_showHex (copies : Bool) (B : Bytes) :
    readOperand copies (' ' :: showHex B) = some B := by
  have hstar : (showHex B).contains '*' = false := by
    rw [← Bool.not_eq_true, List.contains_iff_mem]
    exact fun hmem => (showHex_plain hmem).2.2.2.2 rfl
  rw [readOperand, hstar, Bool.and_false, if_neg Bool.false_ne_true, readHex_showHex]

/-- A written command is read as that command. -/
theorem readCommand_showCommand (op : Op) (IN : Bytes) :
    readCommand (showCommand op IN) = some (.cmd op.selector IN) := by
  cases IN with
  | nil => cases op <;> rfl
  | cons b rest =>
    cases op
    · exact congrArg (Option.map (Signal.cmd 0#1)) (readOperand_of_showHex true (b :: rest))
    · exact congrArg (Option.map (Signal.cmd 1#1)) (readOperand_of_showHex false (b :: rest))

/-- No character of a written command ends a name or begins a comment. -/
theorem showCommand_plain {op : Op} {IN : Bytes} {c : Char} (hc : c ∈ showCommand op IN) :
    c ≠ ':' ∧ c ≠ ';' ∧ c ≠ '-' := by
  have hword : ∀ c ∈ op.word, c ≠ ':' ∧ c ≠ ';' ∧ c ≠ '-' := by cases op <;> simp [Op.word]
  cases IN with
  | nil => exact hword c hc
  | cons b rest =>
    rw [showCommand, List.mem_append, List.mem_cons] at hc
    obtain hw | rfl | hx := hc
    · exact hword c hw
    · decide
    · obtain ⟨-, hcolon, hsemi, hdash, -⟩ := showHex_plain hx
      exact ⟨hcolon, hsemi, hdash⟩

/-- A written command begins with a letter. -/
theorem showCommand_dropSpaces (op : Op) (IN : Bytes) :
    (showCommand op IN).dropWhile (· == ' ') = showCommand op IN := by
  cases IN <;> cases op <;> rfl

/-- A name that begins with no space leaves the line's beginning as it is. -/
theorem name_dropSpaces {name : List Char} (hhead : name.head? ≠ some ' ') (rest : List Char) :
    (name ++ ':' :: rest).dropWhile (· == ' ') = name ++ ':' :: rest := by
  cases name with
  | nil => rfl
  | cons c name =>
    have hc : c ≠ ' ' := fun h => hhead (congrArg some h)
    rw [List.cons_append, List.dropWhile_cons_of_neg (by simpa using hc)]

/-- A line with no comment, no space before it and no colon is a command for no named endpoint. -/
theorem readLine_of_no_name {l : List Char} (hplain : ∀ c ∈ l, c ≠ ':' ∧ c ≠ ';' ∧ c ≠ '-')
    (hspace : l.dropWhile (· == ' ') = l) :
    readLine l = (readCommand l).map (fun sig => { name := none, signal := sig }) := by
  have hline : l.takeWhile (fun c => c != ';' && c != '-') = l :=
    List.takeWhile_eq_self_iff.mpr (by simpa using fun c hc => (hplain c hc).2)
  have hcolon : ¬ l.contains ':' = true := by
    rw [List.contains_iff_mem]
    exact fun hmem => (hplain _ hmem).1 rfl
  simp only [readLine, hline, hspace]
  rw [if_neg hcolon]

/-- A line with no comment and a name before a colon is the command after the colon, for the endpoint of that name. -/
theorem readLine_of_name {name l : List Char} (hhead : name.head? ≠ some ' ')
    (hname : ∀ c ∈ name, c ≠ ':' ∧ c ≠ ';' ∧ c ≠ '-') (hplain : ∀ c ∈ l, c ≠ ';' ∧ c ≠ '-')
    (hspace : l.dropWhile (· == ' ') = l) :
    readLine (name ++ ':' :: ' ' :: l) =
      (readCommand l).map (fun sig => { name := some name, signal := sig }) := by
  have hline : (name ++ ':' :: ' ' :: l).takeWhile (fun c => c != ';' && c != '-') = name ++ ':' :: ' ' :: l := by
    refine List.takeWhile_eq_self_iff.mpr fun c hc => ?_
    rw [List.mem_append, List.mem_cons, List.mem_cons] at hc
    obtain hn | rfl | rfl | hl := hc
    · simpa using (hname c hn).2
    · rfl
    · rfl
    · simpa using hplain c hl
  have hbefore : ∀ c ∈ name, (c != ':') = true := fun c hc => bne_iff_ne.mpr (hname c hc).1
  have hafter : (((':' :: ' ' :: l).dropWhile (· != ':')).drop 1).dropWhile (· == ' ') = l := hspace
  simp only [readLine, hline, name_dropSpaces hhead]
  rw [if_pos (by simp), List.dropWhile_append_of_pos hbefore, List.takeWhile_append_of_pos hbefore, hafter]
  simp

/-- Settles O41: a written command holds no character the script gives a meaning, so the line is that command, alone or
after a name and a colon. -/
theorem writtenCommandReadsBack : Obligations.WrittenCommandReadsBack := by
  constructor
  · intro op IN
    rw [readLine_of_no_name (fun c => showCommand_plain) (showCommand_dropSpaces op IN), readCommand_showCommand]
    rfl
  · intro op IN name hhead hname
    rw [readLine_of_name hhead hname (fun c hc => (showCommand_plain hc).2) (showCommand_dropSpaces op IN),
      readCommand_showCommand]
    rfl

/-- Performing a line on the endpoint it is given to is one step of that endpoint. -/
theorem performLine_cons_of_named {l : ScriptLine} {n : List Char} {s : State} {rest b' : Bench}
    (hn : l.name = none ∨ l.name = some n) (h : performLine l ((n, s) :: rest) = some b') :
    ∃ t, step (s.withPending (l.signal :: s.pending)) = .next t ∧ b' = (n, t) :: rest := by
  rw [performLine, if_pos hn] at h
  split at h
  · cases h
    exact ⟨_, ‹_›, rfl⟩
  · cases h
  · cases h

/-- Performing a line given to another endpoint is performing it on the rest. -/
theorem performLine_cons_of_not_named {l : ScriptLine} {n : List Char} {s : State} {rest b' : Bench}
    (hn : ¬ (l.name = none ∨ l.name = some n)) (h : performLine l ((n, s) :: rest) = some b') :
    ∃ rest', performLine l rest = some rest' ∧ b' = (n, s) :: rest' := by
  rw [performLine, if_neg hn, Option.map_eq_some_iff] at h
  obtain ⟨rest', hrest, rfl⟩ := h
  exact ⟨rest', hrest, rfl⟩

/-- Settles O42, by induction on the bench: the line is given to the first of them, or to one of the rest. -/
theorem instancesShareNothing : Obligations.InstancesShareNothing := by
  intro l b
  induction b with
  | nil => exact nofun
  | cons p rest ih =>
    obtain ⟨n, s⟩ := p
    intro b' h
    by_cases hn : l.name = none ∨ l.name = some n
    · obtain ⟨t, ht, rfl⟩ := performLine_cons_of_named hn h
      refine ⟨0, n, s, t, rfl, rfl, hn, ht, fun i hi => ?_⟩
      obtain ⟨i, rfl⟩ := Nat.exists_eq_succ_of_ne_zero hi
      rfl
    · obtain ⟨rest', hrest, rfl⟩ := performLine_cons_of_not_named hn h
      obtain ⟨j, m, u, t, hj, hj', hm, ht, hothers⟩ := ih rest' hrest
      refine ⟨j + 1, m, u, t, hj, hj', hm, ht, fun i hi => ?_⟩
      cases i with
      | zero => rfl
      | succ i => exact hothers i (fun hij => hi (congrArg Nat.succ hij))

end Sys2Proof.Machine
